-- ==== Sys2Proof/Word.lean ====
section
/-! DEFINITION. The words of the hardware: bytes, the two port bundles of rule R60, and the outcome names of rule R68.
Bit 0 of a
word is the least significant, and every value is an unsigned integer, so a word is read as a number by `toNat` and never by
`toInt` (R9). Every width here is the spec's own: 8-bit lanes (R8 CHAR_WIDTH), 40-bit data ports of five lanes (R8 LANES), 3-bit selector
fields and 3-bit status and length fields (R60). -/

namespace Sys2Proof

/-- An 8-bit lane: a byte 0..255, a character code, or a table address (R65, R67). -/
abbrev Byte := BitVec 8

/-- The request port bundle (R60): `op` selects the operation, `len` is a tail's length, `din` holds five lanes. -/
structure Request where
  op  : BitVec 3
  len : BitVec 3
  din : BitVec 40
deriving DecidableEq, Repr

/-- The response port bundle (R60): the outcome code, the number of valid output lanes, and five output lanes.
`status` is the port's raw three bits, so that a sample taken before the path settles can be any value (R234). -/
structure Response where
  status  : BitVec 3
  doutLen : BitVec 3
  dout    : BitVec 40
deriving DecidableEq, Repr, Inhabited

/-- The outcomes a response or a host procedure can name (R68, R200). Codes 6 and 7 are reserved and have no name. -/
inductive Status where
  | ok
  | emptyInput
  | invalidCharacter
  | invalidLength
  | outOfRange
  | illegalRequest
deriving DecidableEq, Repr

end Sys2Proof
end

