-- ==== Sys2Proof/Config.lean ====
section
/-! DEFINITION. The implementation parameters of rule R8. The fixed ones have their value; the two the spec leaves OPEN, and
the value of a response read before it has settled, are constants without a body. The alphabet itself is in
Machine/Tables.lean. -/

namespace Sys2Proof.Config

/-- `RADIX` (R8). -/
abbrev radix : Nat := 85

/-- `BLOCK_BYTES` (R8). -/
abbrev blockBytes : Nat := 4

/-- `BLOCK_CHARS` (R8). -/
abbrev blockChars : Nat := 5

/-- `LANES` (R8): lanes on each data port. -/
abbrev lanes : Nat := 5

/-- `REV_SHIFT` (R8, R103, decision D10 of the spec). Not observable. -/
abbrev revShift : Nat := 32

/-- `REV_DEPTH` (R8, R103, decision D10 of the spec). Not observable. -/
abbrev revDepth : Nat := 96

/-- `T_PROP` (R8, R234): OPEN, the settle time of the combinational path, in a unit of time the spec does not name
(notes/assumptions/6.md). Nothing in Lean can evaluate it. -/
opaque tProp : Nat

/-- `MAX_STREAM_LEN` (R8): OPEN, the longest buffer the host composes. It does not affect the CORE
(notes/assumptions/7.md). Nothing in Lean can evaluate it. -/
opaque maxStreamLen : Nat

/-- The free value the response port holds while the path has not settled (R234: "the response may hold any value"), one for
each occasion (notes/assumptions/6.md); `State.occasion` numbers them. Nothing in Lean can evaluate it. -/
opaque unsettled : Nat → Response

end Sys2Proof.Config
end

