-- ==== Sys2Proof/Syntax.lean ====
section
/-! DEFINITION. The eleven operations of the operation map (R63), one constructor per row of spec/opcode_table.json, with the
operands of the assembler form (R71). A field an operation ignores (R64, R65) is no operand. -/

namespace Sys2Proof

/-- One operation with its operands, each a lane in stream order (R61). -/
inductive Instr where
  /-- `ENC4 b0, b1, b2, b3`: encode one full block (R121). -/
  | enc4 (b0 b1 b2 b3 : Byte)
  /-- `DEC5 "ccccc"`: decode one full block (R141). -/
  | dec5 (c0 c1 c2 c3 c4 : Byte)
  /-- `PENC1 b0`: encode a 1-byte tail (R123). -/
  | penc1 (b0 : Byte)
  /-- `PENC2 b0, b1`: encode a 2-byte tail (R124). -/
  | penc2 (b0 b1 : Byte)
  /-- `PENC3 b0, b1, b2`: encode a 3-byte tail (R125). -/
  | penc3 (b0 b1 b2 : Byte)
  /-- `PDEC1 "c"`: the 1-character tail (R143). The assembler form has a character (R71); the operation reads none. -/
  | pdec1 (c0 : Byte)
  /-- `PDEC2 "cc"`: decode a 2-character tail (R144). -/
  | pdec2 (c0 c1 : Byte)
  /-- `PDEC3 "ccc"`: decode a 3-character tail (R145). -/
  | pdec3 (c0 c1 c2 : Byte)
  /-- `PDEC4 "cccc"`: decode a 4-character tail (R146). -/
  | pdec4 (c0 c1 c2 c3 : Byte)
  /-- `ALPH i`: read the forward alphabet (R101). -/
  | alph (i : Byte)
  /-- `RALPH 'c'`: read the reverse alphabet (R104). -/
  | ralph (c : Byte)
deriving DecidableEq, Repr

end Sys2Proof
end

