-- ==== Sys2Proof/Machine/Operands.lean ====
section
/-! DEFINITION. Operand and result assembly: the lanes of a data port (R10, R61), the request word (R62), the lanes each
selector reads and fills (R48, R65, R66), and the byte order of a value (R42, R43), in the notation of R9: `w[hi:lo]` is
`extractLsb' lo (hi - lo + 1)`, `{a, b}` is `a ++ b`, and arithmetic on values is exact, over natural numbers. -/

namespace Sys2Proof

/-- Lane `k` of a 40-bit port word: bits `w[8k+7:8k]` (R9, R10, R61). -/
def lane (k : Nat) (w : BitVec 40) : Byte := w.extractLsb' (8 * k) 8

/-- The port word whose lane `k` holds the `k`-th listed value and whose remaining lanes are 0 (R66). -/
def packLanes : List Byte → BitVec 40
  | [] => 0
  | b :: bs => b.setWidth 40 ||| (packLanes bs <<< 8)

/-- The first `n` lanes of a port word, in stream order (R61, R65). -/
def takeLanes (n : Nat) (w : BitVec 40) : List Byte := (List.range n).map fun k => lane k w

/-- The valid output lanes of a response, in stream order (R66). -/
def Response.elements (r : Response) : List Byte := takeLanes r.doutLen.toNat r.dout

/-- The 6-bit selector `sel = {op, len}`, `op` in the more significant bits (R9, R62). -/
def Request.sel (r : Request) : BitVec 6 := r.op ++ r.len

/-- The 46-bit request word `{op, len, din}` (R9, R62). -/
def Request.word (r : Request) : BitVec 46 := r.op ++ r.len ++ r.din

/-- The request a 46-bit word writes (R9, R62): `op = w[45:43]`, `len = w[42:40]`, `din = w[39:0]`. -/
def Request.ofWord (w : BitVec 46) : Request :=
  { op := w.extractLsb' 43 3, len := w.extractLsb' 40 3, din := w.extractLsb' 0 40 }

/-- How many lanes of `din` a request reads, from lane 0 upward (R48, R65); PDEC1 (R143) and an illegal request (R202) read
none. The length of the group is found from the selector alone (R70). -/
def Request.lanesRead (r : Request) : Nat :=
  match r.op.toNat, r.len.toNat with
  | 0, _ => 4
  | 1, _ => 5
  | 2, 1 => 1
  | 2, 2 => 2
  | 2, 3 => 3
  | 3, 2 => 2
  | 3, 3 => 3
  | 3, 4 => 4
  | 4, _ => 1
  | 5, _ => 1
  | _, _ => 0

/-- How many output lanes a request fills on success (R48); 0 where it never succeeds. -/
def Request.lanesFilled (r : Request) : Nat :=
  match r.op.toNat, r.len.toNat with
  | 0, _ => 5
  | 1, _ => 4
  | 2, 1 => 2
  | 2, 2 => 3
  | 2, 3 => 4
  | 3, 2 => 1
  | 3, 3 => 2
  | 3, 4 => 3
  | 4, _ => 1
  | 5, _ => 1
  | _, _ => 0

/-- `BE(b_0, ..., b_{n-1})`, the big-endian value of `n` bytes: the sum of `b_j * 256^(n-1-j)`, each byte unsigned and the sum
exact (R9, R42). -/
def be : List Byte → Nat
  | [] => 0
  | b :: bs => b.toNat * 256 ^ bs.length + be bs

/-- `BYTES_BE(s, m)`, the `m` bytes of `s`, most significant first: byte `j` is `(s >> 8*(m-1-j)) & 0xFF`, on the
unbounded integer `s` (R9, R43). -/
def bytesBE (s m : Nat) : List Byte :=
  (List.range m).map fun j => BitVec.ofNat 8 ((s >>> (8 * (m - 1 - j))) &&& 0xFF)

end Sys2Proof
end

