-- ==== Sys2Proof/WellFormed.lean ====
section
/-! DEFINITION. What is a well-formed term: of the syntax (`Instr.wellFormed`), of a number read as a request word (R62), of a
selector (R63, R64, R69), of a request as the assembler writes it (R71), and of a response the CORE may give (R66, R68, R201,
R206). -/

namespace Sys2Proof

/-- Every operand of every operation is one 8-bit lane, and R121 to R146, R101 and R104 give each of its 256 values a
response; the operand's type is the whole check, so no term of `Instr` is ill-formed. -/
def Instr.wellFormed : Instr → Bool
  | .enc4 _ _ _ _ => true
  | .dec5 _ _ _ _ _ => true
  | .penc1 _ => true
  | .penc2 _ _ => true
  | .penc3 _ _ _ => true
  | .pdec1 _ => true
  | .pdec2 _ _ => true
  | .pdec3 _ _ _ => true
  | .pdec4 _ _ _ _ => true
  | .alph _ => true
  | .ralph _ => true

/-- A number is a request word when it has 46 bits: the top 2 bits of its 12 hexadecimal digits are 0 (R62). -/
def wordFits (w : Nat) : Bool := w < 2 ^ 46

/-- The lengths `len` may carry: any value where the operation has a fixed length, 1..3 for PENC, 1..4 for PDEC (R64; 1 with
PDEC is PDEC1); none for the unassigned operations 6 and 7 (R69). -/
def lengthLegal (op len : BitVec 3) : Bool :=
  match op.toNat with
  | 0 => true
  | 1 => true
  | 2 => 1 ≤ len.toNat && len.toNat ≤ 3
  | 3 => 1 ≤ len.toNat && len.toNat ≤ 4
  | 4 => true
  | 5 => true
  | _ => false

/-- The selector matches a row of the operation map (R63); otherwise the request is illegal (R69). -/
def Request.legal (r : Request) : Bool := lengthLegal r.op r.len

/-- `len` is ignored by the fixed-length operations ENC4, DEC5, ALPH and RALPH (R64). -/
def Request.lenIgnored (r : Request) : Bool := r.op == 0 || r.op == 1 || r.op == 4 || r.op == 5

/-- The length of the group the assembler form lists: the lanes read, and PDEC1's one unread character (R71). -/
def Request.lanesWritten (r : Request) : Nat := if r.op = 3 ∧ r.len = 1 then 1 else r.lanesRead

/-- A request as the assembler writes it (R71): a legal selector, 0 in an ignored `len` and in every unused lane. -/
def Request.assembled (r : Request) : Bool :=
  r.legal && (!r.lenIgnored || r.len == 0) && (List.range 5).all fun k => k < r.lanesWritten || lane k r.din == 0

/-- A response the CORE may give: a status code it produces (0, 2, 3, 4 or 5: R68, R206), at most five output lanes and 0 in
every lane above them (R66), and `dout_len = 0`, `dout = 0` on any error (R201). -/
def Response.legal (r : Response) : Bool :=
  r.status != 1 && r.status != 6 && r.status != 7 && r.doutLen.toNat ≤ 5 &&
  ((List.range 5).all fun k => k < r.doutLen.toNat || lane k r.dout == 0) &&
  (if r.status = 0 then r.doutLen != 0 else r.doutLen == 0 && r.dout == 0)

end Sys2Proof
end

