-- ==== Sys2Proof/Decode.lean ====
section
/-! DEFINITION. The operation map read both ways (R62, R63, R64, R65, R71): `decode` reads a request as the operation its
selector names, total on every request and rejecting by name; `encode` writes the request word of an operation. -/

namespace Sys2Proof

/-- Why a request or a word is no operation. -/
inductive DecodeError where
  /-- The selector matches no row of R63 (R69). The CORE answers it: status ILLEGAL_REQUEST (R202). -/
  | illegalRequest
  /-- The number has a bit above bit 45, so it is no request word (R62): no host can drive it. -/
  | notARequestWord
deriving DecidableEq, Repr

/-- The operation a request selects (R63), with the lanes it reads (R65); an ignored `len` (R64) and the lanes above are
dropped. -/
def decode (r : Request) : Except DecodeError Instr :=
  match r.op.toNat, r.len.toNat with
  | 0, _ => .ok (.enc4 (lane 0 r.din) (lane 1 r.din) (lane 2 r.din) (lane 3 r.din))
  | 1, _ => .ok (.dec5 (lane 0 r.din) (lane 1 r.din) (lane 2 r.din) (lane 3 r.din) (lane 4 r.din))
  | 2, 1 => .ok (.penc1 (lane 0 r.din))
  | 2, 2 => .ok (.penc2 (lane 0 r.din) (lane 1 r.din))
  | 2, 3 => .ok (.penc3 (lane 0 r.din) (lane 1 r.din) (lane 2 r.din))
  | 3, 1 => .ok (.pdec1 (lane 0 r.din))
  | 3, 2 => .ok (.pdec2 (lane 0 r.din) (lane 1 r.din))
  | 3, 3 => .ok (.pdec3 (lane 0 r.din) (lane 1 r.din) (lane 2 r.din))
  | 3, 4 => .ok (.pdec4 (lane 0 r.din) (lane 1 r.din) (lane 2 r.din) (lane 3 r.din))
  | 4, _ => .ok (.alph (lane 0 r.din))
  | 5, _ => .ok (.ralph (lane 0 r.din))
  | _, _ => .error .illegalRequest

/-- The operation a number names as a request word (R62). -/
def decodeWord (w : Nat) : Except DecodeError Instr :=
  if wordFits w then decode (Request.ofWord (BitVec.ofNat 46 w)) else .error .notARequestWord

/-- The operation of a word of `nbits` bits numbered as spec/opcode_table.json numbers them (bit 0 is bit 0 of `din`); the
request word is one number on wires, so it has no byte order (notes/assumptions/3.md). -/
def decodeTableWord (nbits w : Nat) : Option Instr :=
  match decodeWord (w % 2 ^ nbits) with
  | .ok i => some i
  | .error _ => none

/-- The request the assembler writes for an operation (R63, R71): lane `k` carries operand `k`, and every don't-care field
is 0. -/
def encode : Instr → Request
  | .enc4 b0 b1 b2 b3 => { op := 0, len := 0, din := packLanes [b0, b1, b2, b3] }
  | .dec5 c0 c1 c2 c3 c4 => { op := 1, len := 0, din := packLanes [c0, c1, c2, c3, c4] }
  | .penc1 b0 => { op := 2, len := 1, din := packLanes [b0] }
  | .penc2 b0 b1 => { op := 2, len := 2, din := packLanes [b0, b1] }
  | .penc3 b0 b1 b2 => { op := 2, len := 3, din := packLanes [b0, b1, b2] }
  | .pdec1 c0 => { op := 3, len := 1, din := packLanes [c0] }
  | .pdec2 c0 c1 => { op := 3, len := 2, din := packLanes [c0, c1] }
  | .pdec3 c0 c1 c2 => { op := 3, len := 3, din := packLanes [c0, c1, c2] }
  | .pdec4 c0 c1 c2 c3 => { op := 3, len := 4, din := packLanes [c0, c1, c2, c3] }
  | .alph i => { op := 4, len := 0, din := packLanes [i] }
  | .ralph c => { op := 5, len := 0, din := packLanes [c] }

/-- The 46-bit request word of an operation (R62). -/
def encodeWord (i : Instr) : BitVec 46 := (encode i).word

/-- One row of the operation map (R63): the selectors `sel` with `sel &&& selMask = selMatch` name the operation. -/
structure OpcodeRow where
  mnemonic : String
  selMatch : BitVec 6
  selMask  : BitVec 6
deriving DecidableEq, Repr

/-- The row's pattern matches a selector (R63: a bit outside the mask is a don't-care). -/
def OpcodeRow.matchesSel (row : OpcodeRow) (sel : BitVec 6) : Bool := sel &&& row.selMask == row.selMatch

/-- The operation map as spec/opcode_table.json lists it, in its order (R63). `decode` does not read it. -/
def opcodeTable : List OpcodeRow :=
  [{ mnemonic := "ENC4", selMatch := 0b000000, selMask := 0b111000 },
   { mnemonic := "DEC5", selMatch := 0b001000, selMask := 0b111000 },
   { mnemonic := "PENC1", selMatch := 0b010001, selMask := 0b111111 },
   { mnemonic := "PENC2", selMatch := 0b010010, selMask := 0b111111 },
   { mnemonic := "PENC3", selMatch := 0b010011, selMask := 0b111111 },
   { mnemonic := "PDEC1", selMatch := 0b011001, selMask := 0b111111 },
   { mnemonic := "PDEC2", selMatch := 0b011010, selMask := 0b111111 },
   { mnemonic := "PDEC3", selMatch := 0b011011, selMask := 0b111111 },
   { mnemonic := "PDEC4", selMatch := 0b011100, selMask := 0b111111 },
   { mnemonic := "ALPH", selMatch := 0b100000, selMask := 0b111000 },
   { mnemonic := "RALPH", selMatch := 0b101000, selMask := 0b111000 }]

/-- The mnemonic of an operation (R63). -/
def Instr.mnemonic : Instr → String
  | .enc4 _ _ _ _ => "ENC4"
  | .dec5 _ _ _ _ _ => "DEC5"
  | .penc1 _ => "PENC1"
  | .penc2 _ _ => "PENC2"
  | .penc3 _ _ _ => "PENC3"
  | .pdec1 _ => "PDEC1"
  | .pdec2 _ _ => "PDEC2"
  | .pdec3 _ _ _ => "PDEC3"
  | .pdec4 _ _ _ _ => "PDEC4"
  | .alph _ => "ALPH"
  | .ralph _ => "RALPH"

/-- A byte as two hexadecimal digits (R71). -/
def hexText (b : Byte) : List Char := [Nat.digitChar (b.toNat / 16), Nat.digitChar (b.toNat % 16)].map Char.toUpper

/-- Bytes in hexadecimal, stream order, separated by commas (R71). -/
def bytesText : List Byte → List Char
  | [] => []
  | [b] => hexText b
  | b :: bs => hexText b ++ [',', ' '] ++ bytesText bs

/-- Characters as a quoted string, each by its code (R71). -/
def charsText (cs : List Byte) : List Char := '"' :: cs.map (fun c => Char.ofNat c.toNat) ++ ['"']

/-- The assembler form of an operation (R71); its request is `encode`. -/
def Instr.text (i : Instr) : List Char :=
  i.mnemonic.toList ++ ' ' :: match i with
  | .enc4 b0 b1 b2 b3 => bytesText [b0, b1, b2, b3]
  | .dec5 c0 c1 c2 c3 c4 => charsText [c0, c1, c2, c3, c4]
  | .penc1 b0 => bytesText [b0]
  | .penc2 b0 b1 => bytesText [b0, b1]
  | .penc3 b0 b1 b2 => bytesText [b0, b1, b2]
  | .pdec1 c0 => charsText [c0]
  | .pdec2 c0 c1 => charsText [c0, c1]
  | .pdec3 c0 c1 c2 => charsText [c0, c1, c2]
  | .pdec4 c0 c1 c2 c3 => charsText [c0, c1, c2, c3]
  | .alph a => Nat.toDigits 10 a.toNat
  | .ralph c => '0' :: 'x' :: hexText c

end Sys2Proof
end

