-- ==== Sys2Proof/Machine/Flags.lean ====
section
/-! DEFINITION. The status field. The CORE has no flags and no condition codes (R24); the outcome of the current request is a
3-bit code in the response (R68), not sticky and read by no later request. -/

namespace Sys2Proof

/-- The code of each outcome (R68). -/
def Status.code : Status → BitVec 3
  | .ok => 0
  | .emptyInput => 1
  | .invalidCharacter => 2
  | .invalidLength => 3
  | .outOfRange => 4
  | .illegalRequest => 5

/-- The outcome a code names; codes 6 and 7 are reserved and name none (R68). -/
def Status.ofCode (c : BitVec 3) : Option Status :=
  match c.toNat with
  | 0 => some .ok
  | 1 => some .emptyInput
  | 2 => some .invalidCharacter
  | 3 => some .invalidLength
  | 4 => some .outOfRange
  | 5 => some .illegalRequest
  | _ => none

end Sys2Proof
end

