-- ==== Sys2Proof/Machine/State.lean ====
section
/-! DEFINITION. The state of the machine as the host's interface sees it. The CORE itself holds no mutable state (R20 to R27,
R29: its state type is the unit type, `CoreState` in Machine/Combinational.lean); what the interface needs between a request
and its response are the values on the two ports (R60), so State is those, and the model's own counter of free values. The two
alphabet tables are constants (R21, R29), in Machine/Tables.lean. -/

namespace Sys2Proof.Machine

/-- The values on the CORE's two ports, and the model's counter (notes/assumptions/1.md). -/
structure State where
  /-- The request the host drives now (R60). A wire, not a register (R22): the host changes it, no operation does. -/
  request  : Request
  /-- The response port (R60): after a step, the settled response to `request`; before it, any value (R234). -/
  response : Response
  /-- The MODEL's own field, no part of the hardware: how many free values of an unsettled response have been taken
  (R234, notes/assumptions/6.md). No operation reads or writes it; DESIGN CHOICE, safe. -/
  occasion : Nat
deriving DecidableEq, Repr

/-- Why the machine would stop with a fault: it has no such reason. Every error the spec describes is a status in the
response, after which the next request is handled as if it had not occurred (R201, R209); there is no trap, no interrupt and
no privilege (R208, R209, R211). The type has no constructor, so no step can fault. Nobody raises it; safe. -/
inductive Fault where
deriving DecidableEq, Repr

/-- Why the model would give an operation no meaning. -/
inductive Refusal where
  /-- Raised only by an arm of `exec` for an operation without a meaning; no arm is left, so nobody raises it. Safe. -/
  | notModelled (mnemonic : String)
deriving DecidableEq, Repr

/-- The machine at power-up. The CORE has no reset input and no state for one to set (R230), so the two ports' values are not
the CORE's: the request word is 0, a value the model names (notes/assumptions/2.md, DESIGN CHOICE, unsafe), and the response is
the one the CORE gives to it, as the response port is a function of the request port alone (R29): `ENC4 00, 00, 00, 00` answers OK
with `00000` (R121), five times the code 0x30. The model's counter starts at 0 (notes/assumptions/6.md). -/
def State.reset : State :=
  { request := { op := 0, len := 0, din := 0 }
    response := { status := 0, doutLen := 5, dout := 0x3030303030 }
    occasion := 0 }

end Sys2Proof.Machine
end

