-- ==== Sys2Proof/Machine/Tables.lean ====
section
/-! DEFINITION. The two constant tables (R21, R40, R50): the forward alphabet `ALPH` and the reverse alphabet `RALPH`, entry by
entry as R100 and R102 list them, and the two sub-blocks that read them (R101, R103, R106). No operation writes either. -/

namespace Sys2Proof

/-- The forward alphabet: entry `i` is the character code of digit value `i` (R100). -/
def alphabet : List Byte :=
  [0x30, 0x31, 0x32, 0x33, 0x34, 0x35, 0x36, 0x37, 0x38, 0x39, 0x61, 0x62, 0x63, 0x64, 0x65, 0x66, 0x67] ++
  [0x68, 0x69, 0x6A, 0x6B, 0x6C, 0x6D, 0x6E, 0x6F, 0x70, 0x71, 0x72, 0x73, 0x74, 0x75, 0x76, 0x77, 0x78] ++
  [0x79, 0x7A, 0x41, 0x42, 0x43, 0x44, 0x45, 0x46, 0x47, 0x48, 0x49, 0x4A, 0x4B, 0x4C, 0x4D, 0x4E, 0x4F] ++
  [0x50, 0x51, 0x52, 0x53, 0x54, 0x55, 0x56, 0x57, 0x58, 0x59, 0x5A, 0x2E, 0x2D, 0x3A, 0x2B, 0x3D, 0x5E] ++
  [0x21, 0x2F, 0x2A, 0x3F, 0x26, 0x3C, 0x3E, 0x28, 0x29, 0x5B, 0x5D, 0x7B, 0x7D, 0x40, 0x25, 0x24, 0x23]

/-- The outputs of alphabet_rom standing alone (R106): `idx_ok` and `ch`. -/
structure ForwardOut where
  ok   : Bool
  code : Byte
deriving DecidableEq, Repr

/-- `ARom(i)`: the alphabet_rom sub-block (R101). An address of 85 or more names no entry (R47). -/
def aRom (i : Byte) : ForwardOut :=
  if i.toNat < Config.radix then { ok := true, code := alphabet.getD i.toNat 0 } else { ok := false, code := 0 }

/-- The reverse alphabet at the codes 0x20..0x7F, eight codes a line; `none` is invalid (R102). -/
def reverseAlphabet : List (Option (BitVec 7)) :=
  [none, some 68, none, some 84, some 83, some 82, some 72, none] ++  -- 0x20
  [some 75, some 76, some 70, some 65, none, some 63, some 62, some 69] ++  -- 0x28
  [some 0, some 1, some 2, some 3, some 4, some 5, some 6, some 7] ++  -- 0x30
  [some 8, some 9, some 64, none, some 73, some 66, some 74, some 71] ++  -- 0x38
  [some 81, some 36, some 37, some 38, some 39, some 40, some 41, some 42] ++  -- 0x40
  [some 43, some 44, some 45, some 46, some 47, some 48, some 49, some 50] ++  -- 0x48
  [some 51, some 52, some 53, some 54, some 55, some 56, some 57, some 58] ++  -- 0x50
  [some 59, some 60, some 61, some 77, none, some 78, some 67, none] ++  -- 0x58
  [none, some 10, some 11, some 12, some 13, some 14, some 15, some 16] ++  -- 0x60
  [some 17, some 18, some 19, some 20, some 21, some 22, some 23, some 24] ++  -- 0x68
  [some 25, some 26, some 27, some 28, some 29, some 30, some 31, some 32] ++  -- 0x70
  [some 33, some 34, some 35, some 79, none, some 80, none, none]  -- 0x78

/-- The digit of a character code, or none where the code is invalid: codes outside 0x20..0x7F all are (R102). -/
def digitOfCode (c : Nat) : Option (BitVec 7) :=
  if c < 0x20 then none else reverseAlphabet.getD (c - 0x20) none

/-- The outputs of reverse_alphabet_rom standing alone (R106): `valid` and `digit`. -/
structure ReverseOut where
  valid : Bool
  digit : BitVec 7
deriving DecidableEq, Repr

/-- `RRom(c)` for a table of `depth` slots that begins at code `shift` (R103): slot `a` holds the digit of code
`a + shift`; a code outside the window, or whose slot is empty, gives `(valid = 0, digit = 0)`. -/
def rRomWindow (shift depth : Nat) (c : Byte) : ReverseOut :=
  let a : Int := (c.toNat : Int) - (shift : Int)
  if a < 0 ∨ (depth : Int) ≤ a then { valid := false, digit := 0 }
  else
    match digitOfCode (a.toNat + shift) with
    | some d => { valid := true, digit := d }
    | none => { valid := false, digit := 0 }

/-- `RRom(c)`: the reverse_alphabet_rom sub-block, with the spec's window `REV_SHIFT`, `REV_DEPTH` (R103). -/
def rRom (c : Byte) : ReverseOut := rRomWindow Config.revShift Config.revDepth c

end Sys2Proof
end

