-- ==== Sys2Proof/Machine/Ops.lean ====
section
/-! DEFINITION. The shared operations: driving the request port, and the two ways an operation ends, `respond` and `raise`
(R11, R66, R201). Raising an error is all the exception entry this hardware has: no state is saved, control does not transfer,
and there is no return (R201, R209). -/

namespace Sys2Proof.Machine

/-- The host drives `r` on the request port (R23, R60). The path then settles, and until the next step "the response may hold
any value" (R234): the response port takes a free value, a new one at each drive, and nothing of the response before it. That
the free values are numbered by a counter in State is the model's choice (notes/assumptions/6.md, DESIGN CHOICE, safe). -/
def State.drive (s : State) (r : Request) : State :=
  { request := r, response := Config.unsettled s.occasion, occasion := s.occasion + 1 }

/-- The response of `respond(len, lanes...)`: status OK, `dout_len` the number of listed values, which fill the lanes from
lane 0; the remaining lanes are 0 (R11, R66). -/
def okResponse (ls : List Byte) : Response :=
  { status := Status.ok.code, doutLen := BitVec.ofNat 3 ls.length, dout := packLanes ls }

/-- The response of `raise <Status>`: the error's code, `dout_len = 0` and `dout = 0` (R11, R201). -/
def errorResponse (e : Status) : Response := { status := e.code, doutLen := 0, dout := 0 }

/-- The response to a sub-block's result: its output elements, or the error it raised. -/
def responseOf : Except Status (List Byte) → Response
  | .ok ls => okResponse ls
  | .error e => errorResponse e

/-- End the operation with status OK (R11, R66). -/
def State.respond (s : State) (ls : List Byte) : State := { s with response := okResponse ls }

/-- End the operation with an error. Nothing else happens (R201). -/
def State.raise (s : State) (e : Status) : State := { s with response := errorResponse e }

/-- End the operation with a sub-block's result. -/
def State.answer (s : State) : Except Status (List Byte) → State
  | .ok ls => s.respond ls
  | .error e => s.raise e

/-- A request whose selector names no operation (R69): ILLEGAL_REQUEST, and no lane of `din` is read (R202). -/
def rejectRequest (s : State) : Host.Outcome State Fault Refusal := .next (s.raise .illegalRequest)

end Sys2Proof.Machine
end

