-- ==== Sys2Proof/Machine/Decoders.lean ====
section
/-! DEFINITION. The decoding family: the sub-blocks base85_decoder (R140) and z85_padding_decoder (R142), and the operations
DEC5 (R141), PDEC1 (R143), PDEC2 (R144), PDEC3 (R145) and PDEC4 (R146). Every character is checked before any sum is formed
(R147), the sum is exact and unsigned (R9, R150), and a sum that does not fit its bytes is an error (R148). -/

namespace Sys2Proof.Machine

/-- The digits of a group's characters, or none where some lookup is invalid (R147). -/
def digitsOf : List Byte → Option (List Nat)
  | [] => some []
  | c :: cs =>
    if (rRom c).valid then (digitsOf cs).map fun ds => (rRom c).digit.toNat :: ds else none

/-- The sum of `d_k * 85^(n-1-k)`: the first digit has the highest weight (R140, R44). -/
def sumHighFirst : List Nat → Nat
  | [] => 0
  | d :: ds => d * Config.radix ^ ds.length + sumHighFirst ds

/-- The sum of `d_k * 85^k`: the first digit has weight 1 (R142, R44). -/
def sumLowFirst : List Nat → Nat
  | [] => 0
  | d :: ds => d + Config.radix * sumLowFirst ds

/-- The range check and the bytes of a sum: `m` bytes hold the sums below `2^(8m)` (R148, R43). -/
def bytesOfSum (s m : Nat) : Except Status (List Byte) :=
  if s < 2 ^ (8 * m) then .ok (bytesBE s m) else .error .outOfRange

/-- `DEC_BLOCK` of five characters (R140). -/
def decBlock (cs : List Byte) : Except Status (List Byte) :=
  match digitsOf cs with
  | none => .error .invalidCharacter
  | some ds => bytesOfSum (sumHighFirst ds) Config.blockBytes

/-- `PAD_DEC` of `n` characters, with `n - 1` output bytes (R142). The padding decoder reports INVALID_LENGTH for one
character, before any lookup (R63, R143), and it has no other length than 2, 3 and 4 (R64, R69). -/
def padDec (cs : List Byte) : Except Status (List Byte) :=
  if cs.length = 1 then .error .invalidLength
  else if 2 ≤ cs.length ∧ cs.length ≤ 4 then
    match digitsOf cs with
    | none => .error .invalidCharacter
    | some ds => bytesOfSum (sumLowFirst ds) (cs.length - 1)
  else .error .illegalRequest

/-- DEC5: decode one full block (R141). -/
def execDec5 (c0 c1 c2 c3 c4 : Byte) (s : State) : Host.Outcome State Fault Refusal :=
  .next (s.answer (decBlock [c0, c1, c2, c3, c4]))

/-- PDEC1: the one-character tail; no character is read (R143). -/
def execPdec1 (s : State) : Host.Outcome State Fault Refusal :=
  .next (s.raise .invalidLength)

/-- PDEC2: decode a 2-character tail to 1 byte (R144). -/
def execPdec2 (c0 c1 : Byte) (s : State) : Host.Outcome State Fault Refusal :=
  .next (s.answer (padDec [c0, c1]))

/-- PDEC3: decode a 3-character tail to 2 bytes (R145). -/
def execPdec3 (c0 c1 c2 : Byte) (s : State) : Host.Outcome State Fault Refusal :=
  .next (s.answer (padDec [c0, c1, c2]))

/-- PDEC4: decode a 4-character tail to 3 bytes (R146). -/
def execPdec4 (c0 c1 c2 c3 : Byte) (s : State) : Host.Outcome State Fault Refusal :=
  .next (s.answer (padDec [c0, c1, c2, c3]))

end Sys2Proof.Machine
end

