-- ==== Sys2Proof/Machine/Encoders.lean ====
section
/-! DEFINITION. The encoding family: the sub-blocks base85_encoder (R120) and z85_padding_encoder (R122), and the operations
ENC4 (R121), PENC1 (R123), PENC2 (R124) and PENC3 (R125). Every quantity is an exact non-negative integer, `div` is floor division and
`85^k` is exact (R9, R126). -/

namespace Sys2Proof.Machine

/-- The character an encoder emits for a digit: `ARom(d).code` (R120, R122). -/
def charOfDigit (d : Nat) : Byte := (aRom (BitVec.ofNat 8 d)).code

/-- `ENC_BLOCK`: the value of four bytes as five digits, the digit of weight `85^4` first (R120, R44). -/
def encBlock (bs : List Byte) : List Byte :=
  (List.range Config.blockChars).map fun k => charOfDigit (be bs / Config.radix ^ (4 - k) % Config.radix)

/-- `PAD_ENC`: the value of `n` bytes, only those present, as `n + 1` digits, the digit of weight `85^0` first (R122,
R44). -/
def padEnc (bs : List Byte) : List Byte :=
  (List.range (bs.length + 1)).map fun k => charOfDigit (be bs / Config.radix ^ k % Config.radix)

/-- ENC4: encode one full block (R121). -/
def execEnc4 (b0 b1 b2 b3 : Byte) (s : State) : Host.Outcome State Fault Refusal :=
  .next (s.respond (encBlock [b0, b1, b2, b3]))

/-- PENC1: encode a 1-byte tail (R123). -/
def execPenc1 (b0 : Byte) (s : State) : Host.Outcome State Fault Refusal :=
  .next (s.respond (padEnc [b0]))

/-- PENC2: encode a 2-byte tail (R124). -/
def execPenc2 (b0 b1 : Byte) (s : State) : Host.Outcome State Fault Refusal :=
  .next (s.respond (padEnc [b0, b1]))

/-- PENC3: encode a 3-byte tail (R125). -/
def execPenc3 (b0 b1 b2 : Byte) (s : State) : Host.Outcome State Fault Refusal :=
  .next (s.respond (padEnc [b0, b1, b2]))

end Sys2Proof.Machine
end

