-- ==== Sys2Proof/Machine/TableReads.lean ====
section
/-! DEFINITION. The table family: the operations ALPH (R101) and RALPH (R104), which read the two constant tables. A read has
no side effect (R49). -/

namespace Sys2Proof.Machine

/-- The result of reading the forward alphabet: a character, or OUT_OF_RANGE at an address of 85 or more (R101). -/
def forwardRead (i : Byte) : Except Status (List Byte) :=
  if (aRom i).ok then .ok [(aRom i).code] else .error .outOfRange

/-- The result of reading the reverse alphabet: a digit in 8 bits, or INVALID_CHARACTER (R104). The digit of an invalid
lookup is never used (R103). -/
def reverseRead (c : Byte) : Except Status (List Byte) :=
  if (rRom c).valid then .ok [(rRom c).digit.setWidth 8] else .error .invalidCharacter

/-- ALPH: read the forward alphabet (R101). -/
def execAlph (i : Byte) (s : State) : Host.Outcome State Fault Refusal :=
  .next (s.answer (forwardRead i))

/-- RALPH: read the reverse alphabet (R104). -/
def execRalph (c : Byte) (s : State) : Host.Outcome State Fault Refusal :=
  .next (s.answer (reverseRead c))

end Sys2Proof.Machine
end

