-- ==== Sys2Proof/Machine/Dispatch.lean ====
section
/-! DEFINITION. One arm per operation of the operation map (R63). -/

namespace Sys2Proof.Machine

def exec (i : Instr) (s : State) : Host.Outcome State Fault Refusal :=
  match i with
  | .enc4 b0 b1 b2 b3 => Sys2Proof.Machine.execEnc4 b0 b1 b2 b3 s
  | .dec5 c0 c1 c2 c3 c4 => Sys2Proof.Machine.execDec5 c0 c1 c2 c3 c4 s
  | .penc1 b0 => Sys2Proof.Machine.execPenc1 b0 s
  | .penc2 b0 b1 => Sys2Proof.Machine.execPenc2 b0 b1 s
  | .penc3 b0 b1 b2 => Sys2Proof.Machine.execPenc3 b0 b1 b2 s
  | .pdec1 _ => Sys2Proof.Machine.execPdec1 s
  | .pdec2 c0 c1 => Sys2Proof.Machine.execPdec2 c0 c1 s
  | .pdec3 c0 c1 c2 => Sys2Proof.Machine.execPdec3 c0 c1 c2 s
  | .pdec4 c0 c1 c2 c3 => Sys2Proof.Machine.execPdec4 c0 c1 c2 c3 s
  | .alph a => Sys2Proof.Machine.execAlph a s
  | .ralph c => Sys2Proof.Machine.execRalph c s

end Sys2Proof.Machine
end

