-- ==== Sys2Proof/Machine/Step.lean ====
section
/-! DEFINITION. One step: the request on the port is performed as a whole and its response settles on the response port (R49,
R60, R234). There is no program counter and no instruction memory (R23): the next request is whatever the host drives next. -/

namespace Sys2Proof.Machine

/-- Perform the request the host drives (R60): the operation its selector names (R63), or ILLEGAL_REQUEST (R202). -/
def step (s : State) : Host.Outcome State Fault Refusal :=
  match decode s.request with
  | .ok i => exec i s
  | .error _ => rejectRequest s

/-- The host drives the request word `w` (R62), so that the next step performs exactly it. This is how a request comes to run:
the CORE fetches nothing (R23, notes/assumptions/3.md). Bits above bit 45 have no wire. Driving unsettles the response port, as
`State.drive` says. -/
def State.withFetchWord (s : State) (nbits w : Nat) : State :=
  s.drive (Request.ofWord (BitVec.ofNat 46 (w % 2 ^ nbits)))

end Sys2Proof.Machine
end

