-- ==== Sys2Proof/Machine/Combinational.lean ====
section
/-! DEFINITION. The CORE as the one combinational function of R60, `(status, dout_len, dout) = core(op, len, din)`, straight
from the ports to the sub-blocks of R2, without the operation syntax. It states what the machine of Machine/Step.lean is held
to, it is the function the host procedures of Machine/Stream.lean are written over (R171, R174), and it carries the settling
rule (R234). The sub-blocks standing alone are in Machine/SubBlocks.lean. -/

namespace Sys2Proof.Machine

/-- `core(op, len, din)` (R29, R60): the sub-block `op` selects, on the lanes from lane 0 up, `len` of them for a tail (R64);
a one-character tail is INVALID_LENGTH (R143) and every selector outside R63 is ILLEGAL_REQUEST (R202). -/
def coreResponse (r : Request) : Response :=
  match r.op.toNat with
  | 0 => okResponse (encBlock (takeLanes 4 r.din))
  | 1 => responseOf (decBlock (takeLanes 5 r.din))
  | 2 =>
    if 1 ≤ r.len.toNat ∧ r.len.toNat ≤ 3 then okResponse (padEnc (takeLanes r.len.toNat r.din))
    else errorResponse .illegalRequest
  | 3 =>
    if r.len.toNat = 1 then errorResponse .invalidLength
    else if 2 ≤ r.len.toNat ∧ r.len.toNat ≤ 4 then responseOf (padDec (takeLanes r.len.toNat r.din))
    else errorResponse .illegalRequest
  | 4 => responseOf (forwardRead (lane 0 r.din))
  | 5 => responseOf (reverseRead (lane 0 r.din))
  | _ => errorResponse .illegalRequest

/-- The CORE's own state type: the unit type (R29). It has one value, before, during and after any reset (R230). -/
abbrev CoreState := Unit

/-- The CORE as R29 gives it: a total function from a request to a response, over the unit state. -/
def coreStep (c : CoreState) (r : Request) : CoreState × Response := (c, coreResponse r)

/-- What a requester reads on the response port when it samples it `elapsed` after the last change of the request port, and
the state after: the response to the request once the path has settled, which takes at most `T_PROP`, and before that any
value, a new free value at each sample (R234, notes/assumptions/6.md). -/
def sampleResponse (elapsed : Nat) (s : State) : Response × State :=
  if Config.tProp ≤ elapsed then (coreResponse s.request, s)
  else (Config.unsettled s.occasion, { s with occasion := s.occasion + 1 })

end Sys2Proof.Machine
end

