-- ==== Sys2Proof/Machine/Stream.lean ====
section
/-! DEFINITION. The host's reference procedures of 45_host_composition.md: whole-buffer `ENCODE` and `DECODE` as sequences of
CORE requests (R170 to R181), and the pseudo-instructions' expansions (R72). The host is outside the CORE (R7); its buffers are
values here, and nothing of it is in `State`. -/

namespace Sys2Proof.Machine

/-- What a whole-buffer call returns: a status code (R68) and the output buffer, empty on failure (R171, R174). -/
structure HostResult where
  status : BitVec 3
  output : List Byte
deriving DecidableEq, Repr

/-- The operations `ENCODE buf` expands into (R72, R171): an ENC4 for each full block in stream order, then at most one PENCn
for the 1 to 3 bytes left. -/
def expandEncode : List Byte → List Instr
  | [] => []
  | [b0] => [.penc1 b0]
  | [b0, b1] => [.penc2 b0 b1]
  | [b0, b1, b2] => [.penc3 b0 b1 b2]
  | b0 :: b1 :: b2 :: b3 :: rest => .enc4 b0 b1 b2 b3 :: expandEncode rest

/-- The operations for the groups of a text: a DEC5 for each full group in stream order, then at most one PDECn for the 2 to 4
characters left. One character left is no group a host issues (R174). -/
def groupRequests : List Byte → List Instr
  | [] => []
  | [_] => []
  | [c0, c1] => [.pdec2 c0 c1]
  | [c0, c1, c2] => [.pdec3 c0 c1 c2]
  | [c0, c1, c2, c3] => [.pdec4 c0 c1 c2 c3]
  | c0 :: c1 :: c2 :: c3 :: c4 :: rest => .dec5 c0 c1 c2 c3 c4 :: groupRequests rest

/-- The operations `DECODE text` expands into (R72, R174): none where the length is 1 modulo 5, since the host then returns
INVALID_LENGTH before it issues any request (R176); otherwise those of the text's groups. -/
def expandDecode (t : List Byte) : List Instr := if t.length % 5 = 1 then [] else groupRequests t

/-- The text of a byte buffer, group after group: `T <- T ++ core(...).dout` (R171). -/
def encodeGroups : List Byte → List Byte
  | [] => []
  | [b0] => (coreResponse { op := 2, len := 1, din := packLanes [b0] }).elements
  | [b0, b1] => (coreResponse { op := 2, len := 2, din := packLanes [b0, b1] }).elements
  | [b0, b1, b2] => (coreResponse { op := 2, len := 3, din := packLanes [b0, b1, b2] }).elements
  | b0 :: b1 :: b2 :: b3 :: rest =>
    (coreResponse { op := 0, len := 0, din := packLanes [b0, b1, b2, b3] }).elements ++ encodeGroups rest

/-- `ENCODE B` (R171); a buffer of length 0 gives EMPTY_INPUT and no output (R172). -/
def hostEncode (b : List Byte) : HostResult :=
  if b = [] then { status := Status.emptyInput.code, output := [] } else { status := Status.ok.code, output := encodeGroups b }

/-- One group of DECODE: on a response other than OK the call ends with its status and no output, and no later group is
requested; otherwise the group's bytes stand before those of the rest (R174, R178). -/
def decodeGroup (r : Response) (rest : HostResult) : HostResult :=
  if r.status = Status.ok.code then
    if rest.status = Status.ok.code then { status := rest.status, output := r.elements ++ rest.output }
    else { status := rest.status, output := [] }
  else { status := r.status, output := [] }

/-- The groups of `DECODE T`, in stream order (R174). One character left is INVALID_LENGTH with no request issued, as in
`hostDecode`, which never comes here with such a text (R176). -/
def decodeGroups : List Byte → HostResult
  | [] => { status := Status.ok.code, output := [] }
  | [_] => { status := Status.invalidLength.code, output := [] }
  | [c0, c1] => decodeGroup (coreResponse { op := 3, len := 2, din := packLanes [c0, c1] }) { status := Status.ok.code, output := [] }
  | [c0, c1, c2] =>
    decodeGroup (coreResponse { op := 3, len := 3, din := packLanes [c0, c1, c2] }) { status := Status.ok.code, output := [] }
  | [c0, c1, c2, c3] =>
    decodeGroup (coreResponse { op := 3, len := 4, din := packLanes [c0, c1, c2, c3] }) { status := Status.ok.code, output := [] }
  | c0 :: c1 :: c2 :: c3 :: c4 :: rest =>
    decodeGroup (coreResponse { op := 1, len := 0, din := packLanes [c0, c1, c2, c3, c4] }) (decodeGroups rest)

/-- `DECODE T` (R174): EMPTY_INPUT for length 0 (R175), then INVALID_LENGTH for a length that is 1 modulo 5, before any
character is examined (R176), then the groups. -/
def hostDecode (t : List Byte) : HostResult :=
  if t = [] then { status := Status.emptyInput.code, output := [] }
  else if t.length % 5 = 1 then { status := Status.invalidLength.code, output := [] }
  else decodeGroups t

/-- The host drives `r` and lets the machine perform it (R23, R170). -/
def issue (r : Request) (s : State) : Host.Outcome State Fault Refusal := step (s.drive r)

/-- The responses to a sequence of requests, each issued to the state the one before left (R170); a fault or a refusal would
end the sequence. -/
def issueAll : List Request → State → List Response
  | [], _ => []
  | r :: rs, s =>
    match issue r s with
    | .next t => t.response :: issueAll rs t
    | .fault _ => []
    | .refused _ => []

end Sys2Proof.Machine
end

