-- ==== Sys2Proof/Machine/SubBlocks.lean ====
section
/-! DEFINITION. The sub-blocks of R2 standing alone (R60): the fields of the request and response ports that the sub-block's own
rule uses, with the data ports restricted to its lanes. The two ROMs' ports are `aRom` and `rRom` (R106), in
Machine/Tables.lean. A block that stands alone has no `op`, which selects among blocks, and has `len` only where its rule takes
a length (R122, R142); that reading is the model's (notes/assumptions/12.md, DEDUCED, safe). -/

namespace Sys2Proof.Machine

/-- The response fields of a block whose output data port has `n` lanes (R60). -/
structure BlockResponse (n : Nat) where
  status  : BitVec 3
  doutLen : BitVec 3
  dout    : BitVec (8 * n)
deriving DecidableEq, Repr

/-- The first `n` lanes of a response (R60: "the same fields restricted to the lanes the sub-block uses"). -/
def BlockResponse.restrict (n : Nat) (r : Response) : BlockResponse n :=
  { status := r.status, doutLen := r.doutLen, dout := r.dout.setWidth (8 * n) }

/-- A block's response on the CORE's five-lane port: the lanes the block does not have are 0 (R66). -/
def BlockResponse.widen (b : BlockResponse n) : Response :=
  { status := b.status, doutLen := b.doutLen, dout := b.dout.setWidth 40 }

/-- base85_encoder alone: `din[31:0]` to five lanes (R120). -/
def base85Encoder (din : BitVec 32) : BlockResponse 5 :=
  .restrict 5 (okResponse (encBlock (takeLanes 4 (din.setWidth 40))))

/-- base85_decoder alone: `din[39:0]` to four lanes (R140). -/
def base85Decoder (din : BitVec 40) : BlockResponse 4 :=
  .restrict 4 (responseOf (decBlock (takeLanes 5 din)))

/-- z85_padding_encoder alone: `len` and `din[23:0]` to four lanes (R122); a length outside 1..3 is illegal (R64, R69). -/
def z85PaddingEncoder (len : BitVec 3) (din : BitVec 24) : BlockResponse 4 :=
  .restrict 4 (if 1 ≤ len.toNat ∧ len.toNat ≤ 3 then okResponse (padEnc (takeLanes len.toNat (din.setWidth 40)))
    else errorResponse .illegalRequest)

/-- z85_padding_decoder alone: `len` and `din[31:0]` to three lanes (R142); a length of 1 is INVALID_LENGTH (R143) and one
outside 1..4 is illegal (R64, R69). -/
def z85PaddingDecoder (len : BitVec 3) (din : BitVec 32) : BlockResponse 3 :=
  .restrict 3 (responseOf (padDec (takeLanes len.toNat (din.setWidth 40))))

end Sys2Proof.Machine
end

