-- ==== Sys2Proof/Safety.lean ====
section
/-! DEFINITION. What counts as a safe run, in the terms claims use. The hardware has no step that stops (R201, R209); a safe
state is one whose two ports agree and whose response is one the CORE may give. -/

namespace Sys2Proof.Machine

/-- The response port holds the response to the request that is driven (R29, R60). -/
def State.Settled (s : State) : Prop := s.response = coreResponse s.request

/-- The state is settled and its response is one the CORE may give (R66, R68, R201, R206). -/
structure State.Safe (s : State) : Prop where
  settled : s.Settled
  legal   : s.response.legal = true

/-- `o` is a next state in which only the response port has changed, to status OK with exactly these output elements: `dout_len`
is their number, lane `k` holds the `k`-th, and every lane at or above `dout_len` is 0 (R66). -/
def RespondsOk (o : Host.Outcome State Fault Refusal) (s : State) (elements : List Byte) : Prop :=
  ∃ t, o = .next t ∧ t.request = s.request ∧ t.occasion = s.occasion ∧ t.response.status = 0 ∧
    t.response.doutLen.toNat = elements.length ∧ ∀ k < 5, lane k t.response.dout = elements.getD k 0

/-- `o` is a next state in which only the response port has changed, to the status code `code` with `dout_len = 0` and
`dout = 0` (R201). -/
def RespondsError (o : Host.Outcome State Fault Refusal) (s : State) (code : BitVec 3) : Prop :=
  ∃ t, o = .next t ∧ t.request = s.request ∧ t.occasion = s.occasion ∧ t.response = { status := code, doutLen := 0, dout := 0 }

/-- The host may compose a buffer of this length: the spec states its whole-buffer claims for lengths up to `MAX_STREAM_LEN`
and says nothing beyond it (R8, decision D25 of the spec). -/
def HostAccepts (b : List Byte) : Prop := b.length ≤ Config.maxStreamLen

end Sys2Proof.Machine
end

