-- ==== Sys2Proof/Certificates/Slice0/Obligations.lean ====
section
/-! DEFINITION. The statements for the provers, each the formal text of numbered rules of spec/ or derived from them. -/

open Sys2Proof Sys2Proof.Machine

/-! ## Encoding -/

/-- Request words written out from R62 and R63 in 95_test_vectors.md §1 and §2 decode to the operation they stand for, one
for each family and one for a selector that names none. -/
def Obligations.SpecWordsDecode : Prop :=
  decodeTableWord 48 0x00006FD24F86 = some (.enc4 0x86 0x4F 0xD2 0x6F) ∧
  decodeTableWord 48 0x086F6C6C6548 = some (.dec5 0x48 0x65 0x6C 0x6C 0x6F) ∧
  decodeTableWord 48 0x130000CFBFAF = some (.penc3 0xAF 0xBF 0xCF) ∧
  decodeTableWord 48 0x1C00693A652D = some (.pdec4 0x2D 0x65 0x3A 0x69) ∧
  decodeTableWord 48 0x20DDCCBBAA2B = some (.alph 0x2B) ∧
  decodeTableWord 48 0x280000000048 = some (.ralph 0x48) ∧
  decodeTableWord 48 0x170000000001 = none

/-- Decoding the request an operation is assembled to gives the operation back, with every operand at every value, as a port
bundle and as a 48-bit word numbered as the opcode table numbers it (R62, R63, R71). -/
def Obligations.DecodeEncodeRoundTrip : Prop :=
  ∀ i : Instr, i.wellFormed = true →
    decode (encode i) = .ok i ∧ decodeTableWord 48 (encodeWord i).toNat = some i

/-- The assembler writes 0 in every don't-care field: `len` of a fixed-length operation and every unused lane (R71). -/
def Obligations.AssemblerWritesZeros : Prop :=
  ∀ i : Instr, (encode i).legal = true ∧ ((encode i).lenIgnored = true → (encode i).len = 0) ∧
    ∀ k < 5, (encode i).lanesWritten ≤ k → lane k (encode i).din = 0

/-- R63: the patterns of the operation map do not overlap, and the decoder follows them: an operation is read exactly from the
selectors its own row matches, and a selector that matches no row names none. -/
def Obligations.DecodeFollowsOperationMap : Prop :=
  (∀ (r : Request) (i : Instr), decode r = .ok i →
    ∀ row ∈ opcodeTable, row.matchesSel r.sel = true ↔ row.mnemonic = i.mnemonic) ∧
  (∀ r : Request, decode r = .error .illegalRequest ↔ ∀ row ∈ opcodeTable, row.matchesSel r.sel = false)

/-- R69, R202: `op` 6 and 7, PENC with `len` 0, 4, 5, 6 or 7 and PDEC with `len` 0, 5, 6 or 7 answer ILLEGAL_REQUEST (code 5)
whatever the lanes hold; every other selector names an operation. -/
def Obligations.IllegalSelectorsAnswered : Prop :=
  ∀ s : State,
    let illegal := s.request.op = 6 ∨ s.request.op = 7 ∨
      (s.request.op = 2 ∧ (s.request.len = 0 ∨ 4 ≤ s.request.len.toNat)) ∨
      (s.request.op = 3 ∧ (s.request.len = 0 ∨ 5 ≤ s.request.len.toNat))
    (illegal → decode s.request = .error .illegalRequest ∧ RespondsError (step s) s 5) ∧
    (¬ illegal → ∃ i, decode s.request = .ok i)

/-- R64, R65: two requests with the same `op`, the same `len` where the operation has one, and the same values in the lanes the
operation reads (R48) get the same response. -/
def Obligations.IgnoredFieldsDoNotMatter : Prop :=
  ∀ s₁ s₂ t₁ t₂ : State, s₁.request.op = s₂.request.op →
    (s₁.request.op = 2 ∨ s₁.request.op = 3 → s₁.request.len = s₂.request.len) →
    (∀ k < s₁.request.lanesRead, lane k s₁.request.din = lane k s₂.request.din) →
    step s₁ = .next t₁ → step s₂ = .next t₂ → t₁.response = t₂.response

/-- R9 on the port words: `w[hi:lo]` is `w div 2^lo mod 2^(hi-lo+1)` and `{a, b}` has `a` in the more significant bits, for the
lanes (R10), the selector and the request word (R62); a packed word is the sum of its first five lanes at their weights, read
unsigned (R66). -/
def Obligations.WordsFollowBitNotation : Prop :=
  (∀ (k : Nat) (w : BitVec 40), (lane k w).toNat = w.toNat / 2 ^ (8 * k) % 2 ^ 8) ∧
  (∀ r : Request, r.sel.toNat = r.op.toNat * 2 ^ 3 + r.len.toNat) ∧
  (∀ r : Request, r.word.toNat = r.op.toNat * 2 ^ 43 + r.len.toNat * 2 ^ 40 + r.din.toNat) ∧
  (∀ w : BitVec 46, (Request.ofWord w).op.toNat = w.toNat / 2 ^ 43 % 2 ^ 3 ∧
    (Request.ofWord w).len.toNat = w.toNat / 2 ^ 40 % 2 ^ 3 ∧ (Request.ofWord w).din.toNat = w.toNat % 2 ^ 40) ∧
  (∀ ls : List Byte, (packLanes ls).toNat = ∑ k ∈ Finset.range 5, (ls.getD k 0).toNat * 2 ^ (8 * k))

/-! ## The step -/

/-- When the request on the port selects the operation `i`, a step is `exec i`. Nothing stands around it: there is no program
counter to move (R23). -/
def Obligations.StepRunsDecoded : Prop :=
  ∀ (s : State) (i : Instr), decode s.request = .ok i → step s = exec i s

/-- Driving the word an operation is assembled to, the next step performs exactly that operation (R23, R62). -/
def Obligations.StepRunsDrivenWord : Prop :=
  ∀ (i : Instr) (s : State),
    step (s.withFetchWord 48 (encodeWord i).toNat) = exec i (s.drive (encode i))

/-- The machine of decode and exec is the one combinational function of R60: from every state a step answers the state whose
response port holds `core(op, len, din)` and whose request port is unchanged; that function is the CORE of R29, whose own state is the unit type and no part of `State`. -/
def Obligations.StepIsCombinational : Prop :=
  ∀ (c : CoreState) (s : State), step s = .next { s with response := (coreStep c s.request).2 }

/-- The frame: every operation answers a next state from every state, and it leaves the request port alone; the response port
it writes is the same whatever state it starts from (R20, R22, R49). -/
def Obligations.OperationsWriteOnlyTheResponse : Prop :=
  ∀ i : Instr, ∃ r : Response, ∀ s : State, exec i s = .next { s with response := r }

/-- R20, R209: the response a step answers depends on the request alone, so nothing an earlier request computed, and no
earlier error, is visible in it, whatever the response port held and whatever the model's counter of free values is. -/
def Obligations.StepForgetsEarlierRequests : Prop :=
  ∀ s₁ s₂ : State, s₁.request = s₂.request →
    ∃ r : Response, step s₁ = .next { s₁ with response := r } ∧ step s₂ = .next { s₂ with response := r }

/-- A run of any length from any state stops at no fault and no refusal (R201, R209, and the model's reading of them,
notes/assumptions/5.md, DEDUCED), keeps the request that is held, and once it has taken a step shows that request's response,
the combinational function's (R29, R60). That a step keeps the request on the port, so that a run of the machine alone answers
one held request again and again, is the model's choice (notes/assumptions/4.md, DEDUCED). -/
def Obligations.RunsNeverStop : Prop :=
  ∀ (k : Nat) (s : State), ∃ t : State, Sys2Proof.core.run k s = .next t ∧ t.request = s.request ∧
    (0 < k → t.response = coreResponse s.request)

/-- R51, R233: any request may follow any other, and its response is the same as if it had been issued alone, whatever the
state and whatever the sequence (R179: so the order of issue cannot matter). -/
def Obligations.IssuedRequestsAreIndependent : Prop :=
  ∀ (rs : List Request) (s : State), issueAll rs s = rs.map coreResponse

/-- Every step leads to a safe state: the response port agrees with the request port (R29), and the response is one the CORE
may give (R66, R68, R201, R206). No premise on the state before it is needed, so `Safe` is an invariant, and it also holds
after a step from a state the host has just driven, whose response port holds any value (R234). -/
def Obligations.StepEstablishesSafe : Prop :=
  ∀ s t : State, step s = .next t → t.Safe

/-- The state after reset is safe (R230, R231; the request on the port is the model's choice, notes/assumptions/2.md). -/
def Obligations.ResetIsSafe : Prop := State.reset.Safe

/-- R234: a sample taken `T_PROP` or more after a request was driven reads the response that the step on that request leaves
on the port, whatever was sampled before. -/
def Obligations.SettledSampleIsTheResponse : Prop :=
  ∀ (s t : State) (r : Request) (elapsed : Nat), Config.tProp ≤ elapsed →
    step (s.drive r) = .next t → sampleResponse elapsed (s.drive r) = (t.response, s.drive r)

/-! ## The status field and the shape of a response -/

/-- R206: the CORE never returns EMPTY_INPUT (code 1), and no operation has an empty operand: every selector of R63 names a
group of at least one element, and a PENC or PDEC with `len = 0` is ILLEGAL_REQUEST (code 5). The reserved codes 6 and 7 are
never produced either (R68). -/
def Obligations.EmptyInputNeverReturned : Prop :=
  ∀ s t : State, step s = .next t →
    t.response.status ≠ 1 ∧ t.response.status ≠ 6 ∧ t.response.status ≠ 7 ∧
    (s.request.legal = true → 1 ≤ s.request.lanesWritten) ∧
    (s.request.op = 2 ∨ s.request.op = 3 → s.request.len = 0 → t.response.status = 5)

/-- R201: on any error `dout_len = 0` and `dout = 0`, and nothing else changes. -/
def Obligations.ErrorsCarryNoOutput : Prop :=
  ∀ s t : State, step s = .next t → t.response.status ≠ 0 →
    t.response.doutLen = 0 ∧ t.response.dout = 0 ∧ t.request = s.request ∧ t.occasion = s.occasion

/-- R48 and R66: on success `dout_len` is the number of output elements of the operation, and every lane at or above it is
0. -/
def Obligations.OutputLengths : Prop :=
  ∀ s t : State, step s = .next t → t.response.status = 0 →
    (s.request.op = 0 → t.response.doutLen = 5) ∧
    (s.request.op = 1 → t.response.doutLen = 4) ∧
    (s.request.op = 2 → t.response.doutLen.toNat = s.request.len.toNat + 1) ∧
    (s.request.op = 3 → t.response.doutLen.toNat = s.request.len.toNat - 1) ∧
    (s.request.op = 4 → t.response.doutLen = 1) ∧
    (s.request.op = 5 → t.response.doutLen = 1) ∧
    ∀ k < 5, t.response.doutLen.toNat ≤ k → lane k t.response.dout = 0

/-- R207: an illegal selector comes first, then PDEC1's INVALID_LENGTH, then a character outside the alphabet in a used lane of
DEC5, PDEC2, PDEC3, PDEC4 or RALPH, whatever the sum of the others; OUT_OF_RANGE is left for a legal request, not PDEC1, with no
invalid character in a lane a decoder uses. -/
def Obligations.ErrorPriority : Prop :=
  ∀ s t : State, step s = .next t →
    (s.request.legal = false → t.response.status = 5) ∧
    (s.request.op = 3 → s.request.len = 1 → t.response.status = 3) ∧
    (s.request.op = 1 ∨ (s.request.op = 3 ∧ 2 ≤ s.request.len.toNat ∧ s.request.len.toNat ≤ 4) ∨ s.request.op = 5 →
      (∃ k < s.request.lanesRead, digitOfCode (lane k s.request.din).toNat = none) → t.response.status = 2) ∧
    (t.response.status = 4 → s.request.legal = true ∧ ¬ (s.request.op = 3 ∧ s.request.len = 1) ∧
      (s.request.op ≠ 4 → ∀ k < s.request.lanesRead, digitOfCode (lane k s.request.din).toNat ≠ none))

/-- R128: an encode request fails only by an illegal selector; ENC4 and PENC1 to PENC3 return OK for every value of their
lanes. -/
def Obligations.EncodersAreTotal : Prop :=
  ∀ s t : State, step s = .next t →
    (s.request.op = 0 → t.response.status = 0) ∧
    (s.request.op = 2 → (t.response.status = 0 ↔ 1 ≤ s.request.len.toNat ∧ s.request.len.toNat ≤ 3) ∧
      (t.response.status = 0 ∨ t.response.status = 5))

/-! ## The encoders -/

/-- R120, R121: ENC4 answers OK with the five digits of the big-endian value of its bytes, the digit of weight `85^4` first,
each as its alphabet character; it is selected by `op = 0` whatever `len` and lane 4 hold. -/
def Obligations.Enc4Rule : Prop :=
  (∀ (b0 b1 b2 b3 : Byte) (s : State),
    let v := b0.toNat * 2 ^ 24 + b1.toNat * 2 ^ 16 + b2.toNat * 2 ^ 8 + b3.toNat
    RespondsOk (exec (.enc4 b0 b1 b2 b3) s) s
      [alphabet.getD (v / 52200625 % 85) 0, alphabet.getD (v / 614125 % 85) 0, alphabet.getD (v / 7225 % 85) 0,
       alphabet.getD (v / 85 % 85) 0, alphabet.getD (v % 85) 0]) ∧
  (∀ s : State, s.request.op = 0 →
    step s = exec (.enc4 (lane 0 s.request.din) (lane 1 s.request.din) (lane 2 s.request.din) (lane 3 s.request.din)) s)

/-- R123: PENC1 answers OK with two digits of its byte, the digit of weight 1 first; it is selected by `op = 2`, `len = 1`. -/
def Obligations.Penc1Rule : Prop :=
  (∀ (b0 : Byte) (s : State),
    RespondsOk (exec (.penc1 b0) s) s
      [alphabet.getD (b0.toNat % 85) 0, alphabet.getD (b0.toNat / 85 % 85) 0]) ∧
  (∀ s : State, s.request.op = 2 → s.request.len = 1 → step s = exec (.penc1 (lane 0 s.request.din)) s)

/-- R124: PENC2 answers OK with three digits of `b_0 * 256 + b_1`, the digit of weight 1 first; it is selected by `op = 2`,
`len = 2`. -/
def Obligations.Penc2Rule : Prop :=
  (∀ (b0 b1 : Byte) (s : State),
    let v := b0.toNat * 256 + b1.toNat
    RespondsOk (exec (.penc2 b0 b1) s) s
      [alphabet.getD (v % 85) 0, alphabet.getD (v / 85 % 85) 0, alphabet.getD (v / 7225 % 85) 0]) ∧
  (∀ s : State, s.request.op = 2 → s.request.len = 2 →
    step s = exec (.penc2 (lane 0 s.request.din) (lane 1 s.request.din)) s)

/-- R125: PENC3 answers OK with four digits of `b_0 * 65536 + b_1 * 256 + b_2`, the digit of weight 1 first; it is selected by
`op = 2`, `len = 3`. -/
def Obligations.Penc3Rule : Prop :=
  (∀ (b0 b1 b2 : Byte) (s : State),
    let v := b0.toNat * 65536 + b1.toNat * 256 + b2.toNat
    RespondsOk (exec (.penc3 b0 b1 b2) s) s
      [alphabet.getD (v % 85) 0, alphabet.getD (v / 85 % 85) 0, alphabet.getD (v / 7225 % 85) 0,
       alphabet.getD (v / 614125 % 85) 0]) ∧
  (∀ s : State, s.request.op = 2 → s.request.len = 3 →
    step s = exec (.penc3 (lane 0 s.request.din) (lane 1 s.request.din) (lane 2 s.request.din)) s)

/-- R126: a block's value is below `2^32`, its first digit is at most 82, the five digits represent it exactly, and every digit
is an address of the alphabet; a tail of `n` bytes is below `256^n` and its `n + 1` digits represent it exactly. -/
def Obligations.EncoderDigitsAreExact : Prop :=
  (∀ bs : List Byte, bs.length = 4 → be bs < 2 ^ 32 ∧ be bs / 85 ^ 4 ≤ 82 ∧
    be bs = ∑ k ∈ Finset.range 5, (be bs / 85 ^ (4 - k) % 85) * 85 ^ (4 - k)) ∧
  (∀ bs : List Byte, 1 ≤ bs.length → bs.length ≤ 3 → be bs < 256 ^ bs.length ∧ be bs < 85 ^ (bs.length + 1) ∧
    be bs = ∑ k ∈ Finset.range (bs.length + 1), (be bs / 85 ^ k % 85) * 85 ^ k) ∧
  (∀ x : Nat, (aRom (BitVec.ofNat 8 (x % 85))).ok = true)

/-- R127: every character an encode request outputs is one of the 85 of the alphabet. -/
def Obligations.EncoderOutputIsAlphabet : Prop :=
  ∀ s t : State, s.request.op = 0 ∨ s.request.op = 2 → step s = .next t →
    ∀ k < t.response.doutLen.toNat, lane k t.response.dout ∈ alphabet

/-! ## The decoders -/

/-- R140, R141: with all five characters valid and their exact sum `s` below `2^32`, DEC5 answers OK with the four bytes of `s`,
most significant first; with `s` at or above `2^32`, OUT_OF_RANGE (code 4); with any character outside the alphabet,
INVALID_CHARACTER (code 2). It is selected by `op = 1` whatever `len` holds. -/
def Obligations.Dec5Rule : Prop :=
  (∀ (c0 c1 c2 c3 c4 : Byte) (d0 d1 d2 d3 d4 : BitVec 7) (s : State),
    digitOfCode c0.toNat = some d0 → digitOfCode c1.toNat = some d1 → digitOfCode c2.toNat = some d2 →
    digitOfCode c3.toNat = some d3 → digitOfCode c4.toNat = some d4 →
    let v := d0.toNat * 52200625 + d1.toNat * 614125 + d2.toNat * 7225 + d3.toNat * 85 + d4.toNat
    (v < 2 ^ 32 → RespondsOk (exec (.dec5 c0 c1 c2 c3 c4) s) s
      [BitVec.ofNat 8 (v / 2 ^ 24), BitVec.ofNat 8 (v / 2 ^ 16), BitVec.ofNat 8 (v / 2 ^ 8), BitVec.ofNat 8 v]) ∧
    (2 ^ 32 ≤ v → RespondsError (exec (.dec5 c0 c1 c2 c3 c4) s) s 4)) ∧
  (∀ (c0 c1 c2 c3 c4 : Byte) (s : State),
    (∃ c ∈ [c0, c1, c2, c3, c4], digitOfCode c.toNat = none) → RespondsError (exec (.dec5 c0 c1 c2 c3 c4) s) s 2) ∧
  (∀ s : State, s.request.op = 1 →
    step s = exec (.dec5 (lane 0 s.request.din) (lane 1 s.request.din) (lane 2 s.request.din) (lane 3 s.request.din)
      (lane 4 s.request.din)) s)

/-- R143: PDEC1 answers INVALID_LENGTH (code 3) from every state, whatever its character, which is not read; it is selected by
`op = 3`, `len = 1`. -/
def Obligations.Pdec1Rule : Prop :=
  (∀ (c0 : Byte) (s : State), RespondsError (exec (.pdec1 c0) s) s 3) ∧
  (∀ s : State, s.request.op = 3 → s.request.len = 1 → RespondsError (step s) s 3)

/-- R144: with both characters valid and the sum `d_0 + 85 d_1` below 256, PDEC2 answers OK with the one byte; at or above 256,
OUT_OF_RANGE; with a character outside the alphabet, INVALID_CHARACTER. It is selected by `op = 3`, `len = 2`. -/
def Obligations.Pdec2Rule : Prop :=
  (∀ (c0 c1 : Byte) (d0 d1 : BitVec 7) (s : State),
    digitOfCode c0.toNat = some d0 → digitOfCode c1.toNat = some d1 →
    let v := d0.toNat + 85 * d1.toNat
    (v < 256 → RespondsOk (exec (.pdec2 c0 c1) s) s [BitVec.ofNat 8 v]) ∧
    (256 ≤ v → RespondsError (exec (.pdec2 c0 c1) s) s 4)) ∧
  (∀ (c0 c1 : Byte) (s : State),
    (∃ c ∈ [c0, c1], digitOfCode c.toNat = none) → RespondsError (exec (.pdec2 c0 c1) s) s 2) ∧
  (∀ s : State, s.request.op = 3 → s.request.len = 2 →
    step s = exec (.pdec2 (lane 0 s.request.din) (lane 1 s.request.din)) s)

/-- R145: with the three characters valid and the sum `d_0 + 85 d_1 + 7225 d_2` below 65536, PDEC3 answers OK with its two
bytes, most significant first; at or above 65536, OUT_OF_RANGE; with a character outside the alphabet, INVALID_CHARACTER. It
is selected by `op = 3`, `len = 3`. -/
def Obligations.Pdec3Rule : Prop :=
  (∀ (c0 c1 c2 : Byte) (d0 d1 d2 : BitVec 7) (s : State),
    digitOfCode c0.toNat = some d0 → digitOfCode c1.toNat = some d1 → digitOfCode c2.toNat = some d2 →
    let v := d0.toNat + 85 * d1.toNat + 7225 * d2.toNat
    (v < 65536 → RespondsOk (exec (.pdec3 c0 c1 c2) s) s [BitVec.ofNat 8 (v / 256), BitVec.ofNat 8 v]) ∧
    (65536 ≤ v → RespondsError (exec (.pdec3 c0 c1 c2) s) s 4)) ∧
  (∀ (c0 c1 c2 : Byte) (s : State),
    (∃ c ∈ [c0, c1, c2], digitOfCode c.toNat = none) → RespondsError (exec (.pdec3 c0 c1 c2) s) s 2) ∧
  (∀ s : State, s.request.op = 3 → s.request.len = 3 →
    step s = exec (.pdec3 (lane 0 s.request.din) (lane 1 s.request.din) (lane 2 s.request.din)) s)

/-- R146: with the four characters valid and the sum `d_0 + 85 d_1 + 7225 d_2 + 614125 d_3` below 16777216, PDEC4 answers OK
with its three bytes, most significant first; at or above 16777216, OUT_OF_RANGE; with a character outside the alphabet,
INVALID_CHARACTER. It is selected by `op = 3`, `len = 4`. -/
def Obligations.Pdec4Rule : Prop :=
  (∀ (c0 c1 c2 c3 : Byte) (d0 d1 d2 d3 : BitVec 7) (s : State),
    digitOfCode c0.toNat = some d0 → digitOfCode c1.toNat = some d1 → digitOfCode c2.toNat = some d2 →
    digitOfCode c3.toNat = some d3 →
    let v := d0.toNat + 85 * d1.toNat + 7225 * d2.toNat + 614125 * d3.toNat
    (v < 16777216 → RespondsOk (exec (.pdec4 c0 c1 c2 c3) s) s
      [BitVec.ofNat 8 (v / 65536), BitVec.ofNat 8 (v / 256), BitVec.ofNat 8 v]) ∧
    (16777216 ≤ v → RespondsError (exec (.pdec4 c0 c1 c2 c3) s) s 4)) ∧
  (∀ (c0 c1 c2 c3 : Byte) (s : State),
    (∃ c ∈ [c0, c1, c2, c3], digitOfCode c.toNat = none) → RespondsError (exec (.pdec4 c0 c1 c2 c3) s) s 2) ∧
  (∀ s : State, s.request.op = 3 → s.request.len = 4 →
    step s = exec (.pdec4 (lane 0 s.request.din) (lane 1 s.request.din) (lane 2 s.request.din) (lane 3 s.request.din)) s)

/-- R150: the exact sum of a block is at most `85^5 - 1` and that of a tail of `n` characters at most `85^n - 1`; neither is
ever reduced before the range check. -/
def Obligations.DecodeSumsAreBounded : Prop :=
  ∀ (cs : List Byte) (ds : List Nat), digitsOf cs = some ds →
    ds.length = cs.length ∧ sumHighFirst ds < 85 ^ cs.length ∧ sumLowFirst ds < 85 ^ cs.length

/-- R43: `BYTES_BE` inverts `BE`: the bytes of a value's big-endian reading are the bytes it was read from, and reading the `m`
bytes of a value below `256^m` gives the value. -/
def Obligations.BytesOfBigEndian : Prop :=
  (∀ bs : List Byte, bytesBE (be bs) bs.length = bs) ∧ (∀ s m : Nat, s < 256 ^ m → be (bytesBE s m) = s)

/-- R9 with R42, R43, R120, R122, R140 and R142: every value is an unsigned integer, powers and sums are exact and never
reduced, `div` is floor division, of the rational quotient, and a byte of a sum is `(s div 2^(8(m-1-j))) mod 256`. The values and
sums are those of groups of any length. -/
def Obligations.ArithmeticIsUnsignedAndExact : Prop :=
  (∀ bs : List Byte, be bs = ∑ j ∈ Finset.range bs.length, (bs.getD j 0).toNat * 256 ^ (bs.length - 1 - j)) ∧
  (∀ s m : Nat, (bytesBE s m).map BitVec.toNat = (List.range m).map fun j => s / 2 ^ (8 * (m - 1 - j)) % 256) ∧
  (∀ bs : List Byte, encBlock bs = (List.range 5).map fun k =>
    (aRom (BitVec.ofNat 8 (⌊(be bs : ℚ) / 85 ^ (4 - k)⌋₊ % 85))).code) ∧
  (∀ bs : List Byte, padEnc bs = (List.range (bs.length + 1)).map fun k =>
    (aRom (BitVec.ofNat 8 (⌊(be bs : ℚ) / 85 ^ k⌋₊ % 85))).code) ∧
  (∀ ds : List Nat, sumHighFirst ds = ∑ k ∈ Finset.range ds.length, ds.getD k 0 * 85 ^ (ds.length - 1 - k)) ∧
  (∀ ds : List Nat, sumLowFirst ds = ∑ k ∈ Finset.range ds.length, ds.getD k 0 * 85 ^ k)

/-! ## The tables -/

/-- R100, R101: ALPH answers OK with the character of the digit: `0`-`9` from code 0x30, `a`-`z` from 0x61, `A`-`Z` from 0x41,
then the 23 punctuation characters in the source's order; an address of 85 or more answers OUT_OF_RANGE. It is selected by
`op = 4` whatever `len` and lanes 1 to 4 hold. -/
def Obligations.AlphRule : Prop :=
  (∀ (i : Byte) (s : State),
    (i.toNat < 10 → RespondsOk (exec (.alph i) s) s [0x30 + i]) ∧
    (10 ≤ i.toNat → i.toNat < 36 → RespondsOk (exec (.alph i) s) s [0x61 + (i - 10)]) ∧
    (36 ≤ i.toNat → i.toNat < 62 → RespondsOk (exec (.alph i) s) s [0x41 + (i - 36)]) ∧
    (62 ≤ i.toNat → i.toNat < 85 → RespondsOk (exec (.alph i) s) s
      [([0x2E, 0x2D, 0x3A, 0x2B, 0x3D, 0x5E, 0x21, 0x2F, 0x2A, 0x3F, 0x26, 0x3C, 0x3E, 0x28, 0x29, 0x5B, 0x5D, 0x7B, 0x7D,
        0x40, 0x25, 0x24, 0x23] : List Byte).getD (i.toNat - 62) 0]) ∧
    (85 ≤ i.toNat → RespondsError (exec (.alph i) s) s 4)) ∧
  (∀ s : State, s.request.op = 4 → step s = exec (.alph (lane 0 s.request.din)) s)

/-- R104, with R102 by membership: RALPH answers OK with the position of the character in the forward alphabet, and
INVALID_CHARACTER (code 2) for every code that is not in it. It is selected by `op = 5` whatever `len` and lanes 1 to 4 hold. -/
def Obligations.RalphRule : Prop :=
  (∀ (c : Byte) (i : Nat) (s : State), i < 85 → alphabet.getD i 0 = c →
    RespondsOk (exec (.ralph c) s) s [BitVec.ofNat 8 i]) ∧
  (∀ (c : Byte) (s : State), c ∉ alphabet → RespondsError (exec (.ralph c) s) s 2) ∧
  (∀ s : State, s.request.op = 5 → step s = exec (.ralph (lane 0 s.request.din)) s)

/-- R103: the result of `RRom` is the same for any `REV_SHIFT` at most 0x21 and any `REV_DEPTH` with
`REV_SHIFT + REV_DEPTH > 0x7D`, so the window is not observable. -/
def Obligations.ReverseWindowIsNotObservable : Prop :=
  ∀ (shift depth : Nat) (c : Byte), shift ≤ 0x21 → 0x7D < shift + depth → rRomWindow shift depth c = rRom c

/-- R105 on the machine: the character ALPH leaves in lane 0 for a digit, given to RALPH, gives the digit back, and the digit
RALPH leaves for a valid character, given to ALPH, gives the character back. -/
def Obligations.TableReadsAreInverse : Prop :=
  (∀ (i : Byte) (s : State), i.toNat < 85 → ∃ t, exec (.alph i) s = .next t ∧
    RespondsOk (exec (.ralph (lane 0 t.response.dout)) t) t [i]) ∧
  (∀ (c : Byte) (s : State), c ∈ alphabet → ∃ t, exec (.ralph c) s = .next t ∧
    RespondsOk (exec (.alph (lane 0 t.response.dout)) t) t [c])

/-! ## Encoders and decoders together -/

/-- R149, laws 1 and 2: decoding the encoding of a block, or of a tail of 1 to 3 bytes, gives its bytes. -/
def Obligations.GroupRoundTrip : Prop :=
  (∀ bs : List Byte, bs.length = 4 → decBlock (encBlock bs) = .ok bs) ∧
  (∀ bs : List Byte, 1 ≤ bs.length → bs.length ≤ 3 → padDec (padEnc bs) = .ok bs)

/-- R149, law 3: a group a decoder accepts is the encoding of what it decodes to, so the decoders accept no other groups than
the encoders' outputs. (That they accept every one of those is `GroupRoundTrip`.) -/
def Obligations.AcceptedGroupsAreCanonical : Prop :=
  (∀ cs bs : List Byte, cs.length = 5 → decBlock cs = .ok bs → bs.length = 4 ∧ encBlock bs = cs) ∧
  (∀ cs bs : List Byte, 2 ≤ cs.length → cs.length ≤ 4 → padDec cs = .ok bs →
    bs.length = cs.length - 1 ∧ padEnc bs = cs)

/-- R149, law 4: the canonical groups number `2^32` for blocks, and 256, 65536 and 16777216 for tails of 2, 3 and 4
characters. -/
def Obligations.CanonicalGroupCounts : Prop :=
  {cs : List Byte | cs.length = 5 ∧ ∃ bs, decBlock cs = .ok bs}.ncard = 2 ^ 32 ∧
  {cs : List Byte | cs.length = 2 ∧ ∃ bs, padDec cs = .ok bs}.ncard = 256 ∧
  {cs : List Byte | cs.length = 3 ∧ ∃ bs, padDec cs = .ok bs}.ncard = 65536 ∧
  {cs : List Byte | cs.length = 4 ∧ ∃ bs, padDec cs = .ok bs}.ncard = 16777216

/-- The round trip on the machine (R121, R141, R149): the characters an encode operation leaves on the response port, given to
the decode operation of the same length, give the bytes back. -/
def Obligations.MachineGroupRoundTrip : Prop :=
  (∀ (b0 b1 b2 b3 : Byte) (s : State), ∃ t, exec (.enc4 b0 b1 b2 b3) s = .next t ∧
    let d := t.response.dout
    RespondsOk (exec (.dec5 (lane 0 d) (lane 1 d) (lane 2 d) (lane 3 d) (lane 4 d)) t) t [b0, b1, b2, b3]) ∧
  (∀ (b0 : Byte) (s : State), ∃ t, exec (.penc1 b0) s = .next t ∧
    RespondsOk (exec (.pdec2 (lane 0 t.response.dout) (lane 1 t.response.dout)) t) t [b0]) ∧
  (∀ (b0 b1 : Byte) (s : State), ∃ t, exec (.penc2 b0 b1) s = .next t ∧
    let d := t.response.dout
    RespondsOk (exec (.pdec3 (lane 0 d) (lane 1 d) (lane 2 d)) t) t [b0, b1]) ∧
  (∀ (b0 b1 b2 : Byte) (s : State), ∃ t, exec (.penc3 b0 b1 b2) s = .next t ∧
    let d := t.response.dout
    RespondsOk (exec (.pdec4 (lane 0 d) (lane 1 d) (lane 2 d) (lane 3 d)) t) t [b0, b1, b2])

/-! ## Sub-blocks standing alone -/

/-- R60, R106: each sub-block standing alone answers, on its own lanes, what the CORE answers with that block selected: the CORE's
response is the block's with the lanes the block does not have at 0, whatever the CORE's other lanes and an ignored `len` hold;
for the ROMs, the code or the digit where `idx_ok` or `valid` is set, and the error otherwise. The block's ports are read from
R60 by the model (notes/assumptions/12.md, DEDUCED). -/
def Obligations.StandAloneBlocksAgree : Prop :=
  (∀ r : Request, r.op = 0 → coreResponse r = (base85Encoder (r.din.setWidth 32)).widen) ∧
  (∀ r : Request, r.op = 1 → coreResponse r = (base85Decoder r.din).widen) ∧
  (∀ r : Request, r.op = 2 → coreResponse r = (z85PaddingEncoder r.len (r.din.setWidth 24)).widen) ∧
  (∀ r : Request, r.op = 3 → coreResponse r = (z85PaddingDecoder r.len (r.din.setWidth 32)).widen) ∧
  (∀ r : Request, r.op = 4 → coreResponse r =
    if (aRom (lane 0 r.din)).ok then
      { status := 0, doutLen := 1, dout := (aRom (lane 0 r.din)).code.setWidth 40 }
    else { status := 4, doutLen := 0, dout := 0 }) ∧
  (∀ r : Request, r.op = 5 → coreResponse r =
    if (rRom (lane 0 r.din)).valid then
      { status := 0, doutLen := 1, dout := (rRom (lane 0 r.din)).digit.setWidth 40 }
    else { status := 2, doutLen := 0, dout := 0 })

/-! ## Whole buffers -/

/-- R171, R172, R72: ENCODE of an empty buffer is EMPTY_INPUT (code 1) with no output and no request; of any other buffer OK,
with the output elements of the responses the machine gives to the operations it expands into, issued from any state. That they
are issued in stream order is the model's choice (notes/assumptions/8.md, DEDUCED): R171 says in any order. -/
def Obligations.HostEncodeIssuesItsExpansion : Prop :=
  hostEncode [] = { status := 1, output := [] } ∧ expandEncode [] = [] ∧
  ∀ (b : List Byte) (s : State), b ≠ [] →
    hostEncode b = { status := 0, output := (issueAll ((expandEncode b).map encode) s).flatMap Response.elements }

/-- R173: for a nonempty buffer of length `L`, the text has `5q + (r + 1 if r > 0)` characters, which is
`L*5/4 + (1 if L % 4 != 0)` and `ceil(5L/4)`. -/
def Obligations.EncodeLengthLaw : Prop :=
  ∀ b : List Byte, b ≠ [] →
    let n := (hostEncode b).output.length
    n = 5 * (b.length / 4) + (if 0 < b.length % 4 then b.length % 4 + 1 else 0) ∧
    n = b.length * 5 / 4 + (if b.length % 4 = 0 then 0 else 1) ∧ n = (5 * b.length + 3) / 4

/-- R181: the text's length modulo 5 alone tells the tail: 0 when the buffer had none, `r + 1` when it had `r` bytes, and never
1. -/
def Obligations.TailIsRecoveredFromLength : Prop :=
  ∀ b : List Byte, b ≠ [] →
    (hostEncode b).output.length % 5 = (if b.length % 4 = 0 then 0 else b.length % 4 + 1) ∧
    (hostEncode b).output.length % 5 ≠ 1

/-- R175, R176: DECODE of an empty text is EMPTY_INPUT (code 1); of a text whose length is 1 modulo 5 INVALID_LENGTH (code 3),
whatever its characters; both with no output. That neither expands into any operation is the model's reading of R72 and R174,
under which the host returns before it issues a request (notes/assumptions/8.md, DEDUCED). -/
def Obligations.HostDecodeLengthChecks : Prop :=
  hostDecode [] = { status := 1, output := [] } ∧ expandDecode [] = [] ∧
  ∀ t : List Byte, t.length % 5 = 1 → hostDecode t = { status := 3, output := [] } ∧ expandDecode t = []

/-- R174, R178: for every other text, DECODE returns the status of the first group in stream order whose response, given by
the machine from any state, is not OK, with no output; if every group is OK, it returns OK with their bytes joined. -/
def Obligations.HostDecodeReportsFirstFailure : Prop :=
  ∀ (t : List Byte) (s : State), t ≠ [] → t.length % 5 ≠ 1 →
    let responses := issueAll ((expandDecode t).map encode) s
    hostDecode t =
      match responses.find? (fun r => r.status != 0) with
      | some r => { status := r.status, output := [] }
      | none => { status := 0, output := responses.flatMap Response.elements }

/-- R177: on success DECODE outputs `4q + (t - 1 if t > 0)` bytes, which is `floor(L*4/5)`. -/
def Obligations.DecodeLengthLaw : Prop :=
  ∀ t : List Byte, (hostDecode t).status = 0 →
    (hostDecode t).output.length = 4 * (t.length / 5) + (if 0 < t.length % 5 then t.length % 5 - 1 else 0) ∧
    (hostDecode t).output.length = t.length * 4 / 5

/-- R180: for every nonempty byte buffer, decoding its encoding gives OK and the buffer. -/
def Obligations.StreamRoundTrip : Prop :=
  ∀ b : List Byte, b ≠ [] →
    (hostEncode b).status = 0 ∧ hostDecode (hostEncode b).output = { status := 0, output := b }

/-- The converse of R180, derived from R149 law 3: a text DECODE accepts is the text ENCODE gives for the bytes it decoded
to, so no two texts decode to the same bytes. -/
def Obligations.AcceptedTextIsCanonical : Prop :=
  ∀ (t b : List Byte), hostDecode t = { status := 0, output := b } → hostEncode b = { status := 0, output := t }
end

