-- ==== Sys2Proof/Laws/Operands.lean ====
section
/-! SUPPORT. Lanes: what `lane` reads of a packed port word. Byte order: the range of `be`. -/

namespace Sys2Proof

theorem lane_getLsbD (k : Nat) (w : BitVec 40) (i : Nat) (hi : i < 8) :
    (lane k w).getLsbD i = w.getLsbD (8 * k + i) := by
  simp [lane, hi]

/-- Lane 0 of a packed word is the first listed value. -/
theorem lane_zero_packLanes (b : Byte) (bs : List Byte) : lane 0 (packLanes (b :: bs)) = b := by
  apply BitVec.eq_of_getLsbD_eq
  intro i hi
  rw [lane_getLsbD _ _ _ hi]
  simp [packLanes, hi]
  omega

/-- Lane `k + 1` of a packed word is lane `k` of the word that packs the values after the first. -/
theorem lane_succ_packLanes (k : Nat) (hk : k < 4) (b : Byte) (bs : List Byte) :
    lane (k + 1) (packLanes (b :: bs)) = lane k (packLanes bs) := by
  apply BitVec.eq_of_getLsbD_eq
  intro i hi
  rw [lane_getLsbD _ _ _ hi, lane_getLsbD _ _ _ hi]
  have h1 : 8 * (k + 1) + i < 40 := by omega
  have h2 : ¬ 8 * (k + 1) + i < 8 := by omega
  have h3 : 8 * (k + 1) + i - 8 = 8 * k + i := by omega
  have h4 : b.getLsbD (8 * (k + 1) + i) = false := BitVec.getLsbD_of_ge _ _ (by omega)
  simp only [packLanes, BitVec.getLsbD_or, BitVec.getLsbD_setWidth, BitVec.getLsbD_shiftLeft, h1, h2, h3, h4]
  simp

@[simp] theorem lane_zero_word (k : Nat) : lane k 0 = 0 := by simp [lane]

/-- Lane `k` of a packed word holds the `k`-th listed value, and 0 where none is listed (R66). -/
theorem lane_packLanes (bs : List Byte) (k : Nat) (hk : k < 5) : lane k (packLanes bs) = bs.getD k 0 := by
  induction bs generalizing k with
  | nil => exact lane_zero_word k
  | cons b bs ih =>
    cases k with
    | zero => simpa using lane_zero_packLanes b bs
    | succ k => rw [lane_succ_packLanes k (by omega), ih k (by omega)]; simp

/-- Reading back the lanes that were packed gives the list. -/
theorem takeLanes_packLanes (bs : List Byte) (h : bs.length ≤ 5) : takeLanes bs.length (packLanes bs) = bs := by
  apply List.ext_getElem
  · simp [takeLanes]
  · intro k h1 h2
    simp only [takeLanes, List.getElem_map, List.getElem_range]
    rw [lane_packLanes _ _ (by omega), List.getD_eq_getElem _ _ h2]

@[simp] theorem takeLanes_length (n : Nat) (w : BitVec 40) : (takeLanes n w).length = n := by simp [takeLanes]

/-- Two port words with equal lanes are equal. -/
theorem eq_of_lanes (v w : BitVec 40) (h : ∀ k < 5, lane k v = lane k w) : v = w := by
  apply BitVec.eq_of_getLsbD_eq
  intro i hi
  have hl := congrArg (fun b : Byte => b.getLsbD (i % 8)) (h (i / 8) (by omega))
  simp only [lane_getLsbD _ _ _ (Nat.mod_lt i (by omega : 0 < 8))] at hl
  have : 8 * (i / 8) + i % 8 = i := by omega
  rwa [this] at hl

@[simp] theorem be_nil : be [] = 0 := rfl
theorem be_cons (b : Byte) (bs : List Byte) : be (b :: bs) = b.toNat * 256 ^ bs.length + be bs := rfl

/-- `n` bytes stand for a value below `256^n` (R126). -/
theorem be_lt (bs : List Byte) : be bs < 256 ^ bs.length := by
  induction bs with
  | nil => simp
  | cons b bs ih =>
    have hb : b.toNat ≤ 255 := by have := b.isLt; omega
    calc be (b :: bs) = b.toNat * 256 ^ bs.length + be bs := rfl
      _ ≤ 255 * 256 ^ bs.length + be bs := by gcongr
      _ < 255 * 256 ^ bs.length + 256 ^ bs.length := by omega
      _ = 256 ^ (b :: bs).length := by simp [pow_succ]; ring

@[simp] theorem bytesBE_length (s m : Nat) : (bytesBE s m).length = m := by simp [bytesBE]

/-- Byte `j` of a result (R43). -/
theorem bytesBE_getElem (s m j : Nat) (h : j < (bytesBE s m).length) :
    (bytesBE s m)[j] = BitVec.ofNat 8 (s / 2 ^ (8 * (m - 1 - j))) := by
  simp only [bytesBE, List.getElem_map, List.getElem_range, Nat.shiftRight_eq_div_pow]
  apply BitVec.eq_of_toNat_eq
  have : (0xFF : Nat) = 2 ^ 8 - 1 := rfl
  rw [this, Nat.and_two_pow_sub_one_eq_mod]
  simp

end Sys2Proof
end

