-- ==== Sys2Proof/Laws/Tables.lean ====
section
/-! SUPPORT. What a reader of the two tables gets. -/

namespace Sys2Proof

theorem digitOfCode_none_of_lt (n : Nat) (h : n < 0x20) : digitOfCode n = none := by simp [digitOfCode, h]

theorem digitOfCode_none_of_ge (n : Nat) (h : 0x80 ≤ n) : digitOfCode n = none := by
  have h2 : reverseAlphabet.length ≤ n - 0x20 := by
    have : reverseAlphabet.length = 96 := rfl
    omega
  rw [digitOfCode, if_neg (by omega), List.getD_eq_default _ _ h2]

/-- Every digit in the reverse table is below 85 (R102). -/
theorem digitOfCode_lt (n : Nat) (d : BitVec 7) (h : digitOfCode n = some d) : d.toNat < 85 := by
  by_cases hn : n < 0x80
  · have key : ∀ n < 0x80, (digitOfCode n).all (fun d => d.toNat < 85) = true := by decide
    have hk := key n hn
    rw [h] at hk
    simpa using hk
  · rw [digitOfCode_none_of_ge n (by omega)] at h
    cases h

/-- A lookup is the mapping of R102, with digit 0 on an invalid code (R103). -/
theorem rRom_eq (c : Byte) :
    rRom c = match digitOfCode c.toNat with
      | some d => { valid := true, digit := d }
      | none => { valid := false, digit := 0 } := by
  unfold rRom rRomWindow
  by_cases h : (c.toNat : Int) - (Config.revShift : Int) < 0 ∨
      (Config.revDepth : Int) ≤ (c.toNat : Int) - (Config.revShift : Int)
  · have hn : digitOfCode c.toNat = none := by
      rcases h with h | h
      · exact digitOfCode_none_of_lt _ (by simp only [Config.revShift] at h; omega)
      · exact digitOfCode_none_of_ge _ (by simp only [Config.revShift, Config.revDepth] at h; omega)
    simp only [if_pos h, hn]
  · have ha : ((c.toNat : Int) - (Config.revShift : Int)).toNat + Config.revShift = c.toNat := by
      simp only [Config.revShift] at *; omega
    cases hc : digitOfCode c.toNat <;> simp only [if_neg h, ha, hc]

theorem rRom_valid_iff (c : Byte) : (rRom c).valid = true ↔ ∃ d, digitOfCode c.toNat = some d := by
  rw [rRom_eq]; cases digitOfCode c.toNat <;> simp

theorem rRom_of_some (c : Byte) (d : BitVec 7) (h : digitOfCode c.toNat = some d) :
    rRom c = { valid := true, digit := d } := by
  rw [rRom_eq, h]

theorem rRom_of_none (c : Byte) (h : digitOfCode c.toNat = none) : rRom c = { valid := false, digit := 0 } := by
  rw [rRom_eq, h]

/-- An address below 85 reads the entry of the alphabet (R101). -/
theorem aRom_of_lt (i : Byte) (h : i.toNat < 85) : aRom i = { ok := true, code := alphabet.getD i.toNat 0 } := by
  simp [aRom, h]

theorem aRom_of_ge (i : Byte) (h : 85 ≤ i.toNat) : aRom i = { ok := false, code := 0 } := by
  simp [aRom, Nat.not_lt.mpr h]

@[simp] theorem alphabet_length : alphabet.length = 85 := rfl

/-- The digit that R102 gives the character of a digit (R100): the digit. -/
theorem digitOfCode_alphabet (d : Nat) (h : d < 85) :
    digitOfCode (alphabet.getD d 0).toNat = some (BitVec.ofNat 7 d) := by
  have key : ∀ d < 85, digitOfCode (alphabet.getD d 0).toNat = some (BitVec.ofNat 7 d) := by decide
  exact key d h

/-- The character R100 gives to the digit that R102 gives a code: the code. -/
theorem alphabet_digitOfCode (c : Byte) (d : BitVec 7) (h : digitOfCode c.toNat = some d) :
    alphabet.getD d.toNat 0 = c := by
  have key : ∀ n < 128, (digitOfCode n).all (fun d => alphabet.getD d.toNat 0 == BitVec.ofNat 8 n) = true := by decide
  by_cases hn : c.toNat < 128
  · have hk := key c.toNat hn
    rw [h] at hk
    simpa using hk
  · rw [digitOfCode_none_of_ge _ (by omega)] at h
    cases h

namespace Machine

/-- The character of a digit is the alphabet's entry (R120, R126). -/
theorem charOfDigit_eq (d : Nat) (h : d < 85) : charOfDigit d = alphabet.getD d 0 := by
  have hd : (BitVec.ofNat 8 d).toNat = d := by simp; omega
  rw [charOfDigit, aRom_of_lt _ (by omega), hd]

/-- Looking up the character of a digit gives the digit. -/
theorem rRom_charOfDigit (d : Nat) (h : d < 85) :
    rRom (charOfDigit d) = { valid := true, digit := BitVec.ofNat 7 d } := by
  rw [charOfDigit_eq d h]
  exact rRom_of_some _ _ (digitOfCode_alphabet d h)

@[simp] theorem digitsOf_nil : digitsOf [] = some [] := rfl

theorem digitsOf_cons_some (c : Byte) (cs : List Byte) (d : BitVec 7) (h : digitOfCode c.toNat = some d) :
    digitsOf (c :: cs) = (digitsOf cs).map fun ds => d.toNat :: ds := by
  simp [digitsOf, rRom_of_some c d h]

theorem digitsOf_cons_none (c : Byte) (cs : List Byte) (h : digitOfCode c.toNat = none) : digitsOf (c :: cs) = none := by
  simp [digitsOf, rRom_of_none c h]

/-- Any invalid character makes the whole group invalid (R147). -/
theorem digitsOf_eq_none (cs : List Byte) (h : ∃ c ∈ cs, digitOfCode c.toNat = none) : digitsOf cs = none := by
  induction cs with
  | nil => simp at h
  | cons c cs ih =>
    cases hc : digitOfCode c.toNat with
    | none => exact digitsOf_cons_none c cs hc
    | some d =>
      obtain ⟨x, hx, hn⟩ := h
      rcases List.mem_cons.mp hx with rfl | hx
      · rw [hc] at hn; cases hn
      · rw [digitsOf_cons_some c cs d hc, ih ⟨x, hx, hn⟩]; rfl

end Machine
end Sys2Proof
end

