-- ==== Sys2Proof/Laws/Codec.lean ====
section
/-! SUPPORT. Digits and bytes of a value: what the sub-blocks compute, in arithmetic. -/

namespace Sys2Proof

/-- A result's bytes by division (R43). -/
theorem bytesBE_eq (s m : Nat) :
    bytesBE s m = (List.range m).map fun j => BitVec.ofNat 8 (s / 2 ^ (8 * (m - 1 - j))) := by
  apply List.ext_getElem
  · simp
  · intro j h1 h2
    rw [bytesBE_getElem]
    simp

/-- The most significant byte stands first (R43). -/
theorem bytesBE_succ (s m : Nat) : bytesBE s (m + 1) = BitVec.ofNat 8 (s / 256 ^ m) :: bytesBE s m := by
  rw [bytesBE_eq, bytesBE_eq, List.range_succ_eq_map]
  simp only [List.map_cons, List.map_map, List.cons.injEq]
  refine ⟨?_, List.map_congr_left fun j hj => ?_⟩
  · congr 2
    rw [show (256 : ℕ) = 2 ^ 8 from rfl, ← pow_mul]
    congr 1
  · simp only [Function.comp]
    congr 3
    simp at hj
    omega

namespace Machine

theorem sumHighFirst_cons (d : Nat) (ds : List Nat) :
    sumHighFirst (d :: ds) = d * 85 ^ ds.length + sumHighFirst ds := rfl

theorem sumLowFirst_cons (d : Nat) (ds : List Nat) : sumLowFirst (d :: ds) = d + 85 * sumLowFirst ds := rfl

theorem encBlock_eq (bs : List Byte) :
    encBlock bs = [be bs / 85 ^ 4 % 85, be bs / 85 ^ 3 % 85, be bs / 85 ^ 2 % 85, be bs / 85 % 85, be bs % 85].map
      charOfDigit := by
  simp [encBlock, Config.blockChars, Config.radix, List.range_succ]

@[simp] theorem encBlock_length (bs : List Byte) : (encBlock bs).length = 5 := by simp [encBlock, Config.blockChars]

/-- A tail of `n` bytes has `n + 1` characters (R122). -/
@[simp] theorem padEnc_length (bs : List Byte) : (padEnc bs).length = bs.length + 1 := by simp [padEnc]

/-- Looking up the characters of digits gives the digits. -/
theorem digitsOf_map_charOfDigit (ds : List Nat) (h : ∀ d ∈ ds, d < 85) : digitsOf (ds.map charOfDigit) = some ds := by
  induction ds with
  | nil => rfl
  | cons d ds ih =>
    have hd := h d (by simp)
    rw [List.map_cons, charOfDigit_eq d hd, digitsOf_cons_some _ _ _ (digitOfCode_alphabet d hd),
      ih fun x hx => h x (by simp [hx])]
    simp
    omega

/-- A group whose lookups are all valid is the characters of its digits, all below 85. -/
theorem digitsOf_eq_some (cs : List Byte) (ds : List Nat) (h : digitsOf cs = some ds) :
    cs = ds.map charOfDigit ∧ ∀ d ∈ ds, d < 85 := by
  induction cs generalizing ds with
  | nil => cases h; simp
  | cons c cs ih =>
    cases hc : digitOfCode c.toNat with
    | none => rw [digitsOf_cons_none _ _ hc] at h; cases h
    | some d =>
      rw [digitsOf_cons_some _ _ d hc] at h
      cases hds : digitsOf cs with
      | none => rw [hds] at h; cases h
      | some es =>
        rw [hds] at h
        cases h
        obtain ⟨h1, h2⟩ := ih es hds
        have hd := digitOfCode_lt _ _ hc
        refine ⟨by rw [List.map_cons, ← h1, charOfDigit_eq _ hd, alphabet_digitOfCode c d hc], fun x hx => ?_⟩
        rcases List.mem_cons.mp hx with rfl | hx
        · exact hd
        · exact h2 x hx

/-- A range check answers `m` bytes or OUT_OF_RANGE (R148). -/
theorem bytesOfSum_cases (s m : Nat) :
    (s < 2 ^ (8 * m) ∧ bytesOfSum s m = .ok (bytesBE s m)) ∨ (2 ^ (8 * m) ≤ s ∧ bytesOfSum s m = .error .outOfRange) := by
  unfold bytesOfSum
  split
  · exact .inl ⟨‹_›, rfl⟩
  · exact .inr ⟨Nat.le_of_not_lt ‹_›, rfl⟩

/-- What the full-block decoder answers: INVALID_CHARACTER, four bytes, or OUT_OF_RANGE (R140). -/
theorem decBlock_cases (cs : List Byte) :
    decBlock cs = .error .invalidCharacter ∨ decBlock cs = .error .outOfRange ∨
      ∃ bs, bs.length = 4 ∧ decBlock cs = .ok bs := by
  unfold decBlock
  split
  · exact .inl rfl
  · rcases bytesOfSum_cases (sumHighFirst _) Config.blockBytes with ⟨-, h⟩ | ⟨-, h⟩ <;> rw [h]
    · exact .inr (.inr ⟨_, bytesBE_length _ _, rfl⟩)
    · exact .inr (.inl rfl)

/-- The padding decoder on one character: INVALID_LENGTH, whatever it is (R143). -/
@[simp] theorem padDec_one (c : Byte) : padDec [c] = .error .invalidLength := rfl

/-- The padding decoder on the lengths it decodes (R142). -/
theorem padDec_eq (cs : List Byte) (h2 : 2 ≤ cs.length) (h4 : cs.length ≤ 4) :
    padDec cs = match digitsOf cs with
      | none => .error .invalidCharacter
      | some ds => bytesOfSum (sumLowFirst ds) (cs.length - 1) :=
  (if_neg (by omega)).trans (if_pos ⟨h2, h4⟩)

/-- What the padding decoder answers on 2 to 4 characters: INVALID_CHARACTER, one byte fewer than its characters, or
OUT_OF_RANGE (R142). -/
theorem padDec_cases (cs : List Byte) (h2 : 2 ≤ cs.length) (h4 : cs.length ≤ 4) :
    padDec cs = .error .invalidCharacter ∨ padDec cs = .error .outOfRange ∨
      ∃ bs, bs.length = cs.length - 1 ∧ padDec cs = .ok bs := by
  rw [padDec_eq cs h2 h4]
  split
  · exact .inl rfl
  · rcases bytesOfSum_cases (sumLowFirst _) (cs.length - 1) with ⟨-, h⟩ | ⟨-, h⟩ <;> rw [h]
    · exact .inr (.inr ⟨_, bytesBE_length _ _, rfl⟩)
    · exact .inr (.inl rfl)

/-- What a read of the forward alphabet answers (R101). -/
theorem forwardRead_cases (i : Byte) :
    forwardRead i = .error .outOfRange ∨ ∃ c, forwardRead i = .ok [c] := by
  unfold forwardRead
  split
  · exact .inr ⟨_, rfl⟩
  · exact .inl rfl

/-- What a read of the reverse alphabet answers (R104). -/
theorem reverseRead_cases (c : Byte) :
    reverseRead c = .error .invalidCharacter ∨ ∃ d, reverseRead c = .ok [d] := by
  unfold reverseRead
  split
  · exact .inr ⟨_, rfl⟩
  · exact .inl rfl

end Machine
end Sys2Proof
end

