-- ==== Sys2Proof/Laws/State.lean ====
section
/-! SUPPORT. One lemma for each field of State under each operation that updates it. -/

namespace Sys2Proof.Machine

@[simp] theorem State.drive_request (s : State) (r : Request) : (s.drive r).request = r := rfl
@[simp] theorem State.drive_response (s : State) (r : Request) :
    (s.drive r).response = Config.unsettled s.occasion := rfl
@[simp] theorem State.drive_occasion (s : State) (r : Request) : (s.drive r).occasion = s.occasion + 1 := rfl

@[simp] theorem State.respond_request (s : State) (ls : List Byte) : (s.respond ls).request = s.request := rfl
@[simp] theorem State.respond_occasion (s : State) (ls : List Byte) : (s.respond ls).occasion = s.occasion := rfl
@[simp] theorem State.respond_response (s : State) (ls : List Byte) : (s.respond ls).response = okResponse ls := rfl

@[simp] theorem State.raise_request (s : State) (e : Status) : (s.raise e).request = s.request := rfl
@[simp] theorem State.raise_occasion (s : State) (e : Status) : (s.raise e).occasion = s.occasion := rfl
@[simp] theorem State.raise_response (s : State) (e : Status) : (s.raise e).response = errorResponse e := rfl

@[simp] theorem State.answer_ok (s : State) (ls : List Byte) : s.answer (.ok ls) = s.respond ls := rfl
@[simp] theorem State.answer_error (s : State) (e : Status) : s.answer (.error e) = s.raise e := rfl

@[simp] theorem State.answer_request (s : State) (x : Except Status (List Byte)) : (s.answer x).request = s.request := by
  cases x <;> rfl

@[simp] theorem State.answer_occasion (s : State) (x : Except Status (List Byte)) :
    (s.answer x).occasion = s.occasion := by
  cases x <;> rfl

@[simp] theorem State.answer_response (s : State) (x : Except Status (List Byte)) :
    (s.answer x).response = responseOf x := by
  cases x <;> rfl

/-- Ending an operation changes the response port and nothing else. -/
theorem State.answer_eq (s : State) (x : Except Status (List Byte)) :
    s.answer x = { s with response := responseOf x } := by
  cases x <;> rfl

@[simp] theorem okResponse_status (ls : List Byte) : (okResponse ls).status = 0 := rfl
@[simp] theorem okResponse_doutLen (ls : List Byte) : (okResponse ls).doutLen = BitVec.ofNat 3 ls.length := rfl
@[simp] theorem okResponse_dout (ls : List Byte) : (okResponse ls).dout = packLanes ls := rfl
@[simp] theorem errorResponse_status (e : Status) : (errorResponse e).status = e.code := rfl
@[simp] theorem errorResponse_doutLen (e : Status) : (errorResponse e).doutLen = 0 := rfl
@[simp] theorem errorResponse_dout (e : Status) : (errorResponse e).dout = 0 := rfl

end Sys2Proof.Machine
end

