-- ==== Sys2Proof/Laws/Combinational.lean ====
section
/-! SUPPORT. The combinational function at the requests the host procedures issue. -/

namespace Sys2Proof.Machine

theorem coreResponse_enc4 (b0 b1 b2 b3 : Byte) :
    coreResponse { op := 0, len := 0, din := packLanes [b0, b1, b2, b3] } = okResponse (encBlock [b0, b1, b2, b3]) := by
  simp [coreResponse, takeLanes, List.range_succ, lane_packLanes]

theorem coreResponse_penc1 (b0 : Byte) :
    coreResponse { op := 2, len := 1, din := packLanes [b0] } = okResponse (padEnc [b0]) := by
  simp [coreResponse, takeLanes, List.range_succ, lane_packLanes]

theorem coreResponse_penc2 (b0 b1 : Byte) :
    coreResponse { op := 2, len := 2, din := packLanes [b0, b1] } = okResponse (padEnc [b0, b1]) := by
  simp [coreResponse, takeLanes, List.range_succ, lane_packLanes]

theorem coreResponse_penc3 (b0 b1 b2 : Byte) :
    coreResponse { op := 2, len := 3, din := packLanes [b0, b1, b2] } = okResponse (padEnc [b0, b1, b2]) := by
  simp [coreResponse, takeLanes, List.range_succ, lane_packLanes]

theorem coreResponse_dec5 (c0 c1 c2 c3 c4 : Byte) :
    coreResponse { op := 1, len := 0, din := packLanes [c0, c1, c2, c3, c4] } =
      responseOf (decBlock [c0, c1, c2, c3, c4]) := by
  simp [coreResponse, takeLanes, List.range_succ, lane_packLanes]

theorem coreResponse_pdec2 (c0 c1 : Byte) :
    coreResponse { op := 3, len := 2, din := packLanes [c0, c1] } = responseOf (padDec [c0, c1]) := by
  simp [coreResponse, takeLanes, List.range_succ, lane_packLanes]

theorem coreResponse_pdec3 (c0 c1 c2 : Byte) :
    coreResponse { op := 3, len := 3, din := packLanes [c0, c1, c2] } = responseOf (padDec [c0, c1, c2]) := by
  simp [coreResponse, takeLanes, List.range_succ, lane_packLanes]

theorem coreResponse_pdec4 (c0 c1 c2 c3 : Byte) :
    coreResponse { op := 3, len := 4, din := packLanes [c0, c1, c2, c3] } = responseOf (padDec [c0, c1, c2, c3]) := by
  simp [coreResponse, takeLanes, List.range_succ, lane_packLanes]

end Sys2Proof.Machine
end

