-- ==== Sys2Proof/Laws/Decode.lean ====
section
/-! SUPPORT. The decoder at each selector of R63, and the request word read back. -/

namespace Sys2Proof

variable (r : Request)

theorem decode_enc4 (h : r.op = 0) :
    decode r = .ok (.enc4 (lane 0 r.din) (lane 1 r.din) (lane 2 r.din) (lane 3 r.din)) := by simp [decode, h]

theorem decode_dec5 (h : r.op = 1) :
    decode r = .ok (.dec5 (lane 0 r.din) (lane 1 r.din) (lane 2 r.din) (lane 3 r.din) (lane 4 r.din)) := by
  simp [decode, h]

theorem decode_penc1 (h : r.op = 2) (hl : r.len = 1) : decode r = .ok (.penc1 (lane 0 r.din)) := by
  simp [decode, h, hl]

theorem decode_penc2 (h : r.op = 2) (hl : r.len = 2) : decode r = .ok (.penc2 (lane 0 r.din) (lane 1 r.din)) := by
  simp [decode, h, hl]

theorem decode_penc3 (h : r.op = 2) (hl : r.len = 3) :
    decode r = .ok (.penc3 (lane 0 r.din) (lane 1 r.din) (lane 2 r.din)) := by simp [decode, h, hl]

theorem decode_pdec1 (h : r.op = 3) (hl : r.len = 1) : decode r = .ok (.pdec1 (lane 0 r.din)) := by
  simp [decode, h, hl]

theorem decode_pdec2 (h : r.op = 3) (hl : r.len = 2) : decode r = .ok (.pdec2 (lane 0 r.din) (lane 1 r.din)) := by
  simp [decode, h, hl]

theorem decode_pdec3 (h : r.op = 3) (hl : r.len = 3) :
    decode r = .ok (.pdec3 (lane 0 r.din) (lane 1 r.din) (lane 2 r.din)) := by simp [decode, h, hl]

theorem decode_pdec4 (h : r.op = 3) (hl : r.len = 4) :
    decode r = .ok (.pdec4 (lane 0 r.din) (lane 1 r.din) (lane 2 r.din) (lane 3 r.din)) := by simp [decode, h, hl]

theorem decode_alph (h : r.op = 4) : decode r = .ok (.alph (lane 0 r.din)) := by simp [decode, h]

theorem decode_ralph (h : r.op = 5) : decode r = .ok (.ralph (lane 0 r.din)) := by simp [decode, h]

/-- Three selector bits are one of eight values. -/
theorem bits3_cases (x : BitVec 3) : x = 0 ∨ x = 1 ∨ x = 2 ∨ x = 3 ∨ x = 4 ∨ x = 5 ∨ x = 6 ∨ x = 7 := by
  revert x; decide

/-- Reading a request word back gives the request (R62). -/
theorem Request.ofWord_word : Request.ofWord r.word = r := by
  obtain ⟨op, len, din⟩ := r
  simp only [Request.ofWord, Request.word, Request.mk.injEq]
  refine ⟨?_, ?_, ?_⟩ <;> (apply BitVec.eq_of_getLsbD_eq; intro i hi)
  · have h1 : ¬ 43 + i < 40 := by omega
    have h2 : ¬ 43 + i - 40 < 3 := by omega
    have h3 : 43 + i - 40 - 3 = i := by omega
    simp only [BitVec.getLsbD_extractLsb', BitVec.getLsbD_append, hi, h1, h2, h3, decide_true, Bool.true_and, if_false]
  · have h1 : ¬ 40 + i < 40 := by omega
    have h3 : 40 + i - 40 = i := by omega
    simp only [BitVec.getLsbD_extractLsb', BitVec.getLsbD_append, hi, h1, h3, decide_true, Bool.true_and, if_false, if_true]
  · have h3 : 0 + i = i := by omega
    simp only [BitVec.getLsbD_extractLsb', BitVec.getLsbD_append, hi, h3, decide_true, Bool.true_and, if_true]

end Sys2Proof
end

