-- ==== Sys2Proof/Laws/Ops.lean ====
section
/-! SUPPORT. What the ways an operation ends say of the response port. -/

namespace Sys2Proof.Machine

/-- `respond` answers OK with the listed elements (R66). -/
theorem respondsOk_respond (s : State) (ls : List Byte) (h : ls.length ≤ 5) :
    RespondsOk (.next (s.respond ls)) s ls := by
  refine ⟨_, rfl, rfl, rfl, rfl, ?_, fun k hk => lane_packLanes ls k hk⟩
  simp; omega

/-- `raise` answers the error's code with no output (R201). -/
theorem respondsError_raise (s : State) (e : Status) : RespondsError (.next (s.raise e)) s e.code :=
  ⟨_, rfl, rfl, rfl, rfl⟩

/-- A next state in which only the response port changed is one state at most: RespondsOk fixes it. -/
theorem RespondsOk.next_eq (s : State) (o : Host.Outcome State Fault Refusal) (ls : List Byte)
    (h : RespondsOk o s ls) (hl : ls.length ≤ 5) : o = .next (s.respond ls) := by
  obtain ⟨⟨q, ⟨st, n, d⟩, c⟩, rfl, hq, hc, hs, hn, hd⟩ := h
  simp only at hq hc hs hn hd
  subst hq hc hs
  have h1 : n = BitVec.ofNat 3 ls.length := by
    apply BitVec.eq_of_toNat_eq; rw [hn]; simp; omega
  have h2 : d = packLanes ls := eq_of_lanes _ _ fun k hk => by rw [hd k hk, lane_packLanes ls k hk]
  subst h1 h2
  rfl

/-- The elements of an OK response are the listed ones (R66). -/
theorem elements_okResponse (ls : List Byte) (h : ls.length ≤ 5) : (okResponse ls).elements = ls := by
  have : (BitVec.ofNat 3 ls.length).toNat = ls.length := by simp; omega
  rw [Response.elements, okResponse_doutLen, this]
  exact takeLanes_packLanes ls h

/-- An error response has no elements. -/
@[simp] theorem elements_errorResponse (e : Status) : (errorResponse e).elements = [] := rfl

end Sys2Proof.Machine
end

