-- ==== Sys2Proof/Laws/PerInstr.lean ====
section
/-! SUPPORT. The family Selector: each operation's assembled request is one its own row of the operation map matches, and its
selector is legal (R63, R64). -/

namespace Sys2Proof.Laws.Selector

/-- The assembled request of `i` has a legal selector, and its mnemonic's row, and only it, matches (R63). -/
def Statement (i : Instr) : Prop :=
  (encode i).legal = true ∧
    (opcodeTable.filter fun row => row.matchesSel (encode i).sel).map OpcodeRow.mnemonic = [i.mnemonic]

theorem enc4 (b0 b1 b2 b3 : Byte) : Statement (.enc4 b0 b1 b2 b3) :=
  ⟨rfl, by simp only [encode, Request.sel, Instr.mnemonic]; decide⟩
theorem dec5 (c0 c1 c2 c3 c4 : Byte) : Statement (.dec5 c0 c1 c2 c3 c4) :=
  ⟨rfl, by simp only [encode, Request.sel, Instr.mnemonic]; decide⟩
theorem penc1 (b0 : Byte) : Statement (.penc1 b0) :=
  ⟨rfl, by simp only [encode, Request.sel, Instr.mnemonic]; decide⟩
theorem penc2 (b0 b1 : Byte) : Statement (.penc2 b0 b1) :=
  ⟨rfl, by simp only [encode, Request.sel, Instr.mnemonic]; decide⟩
theorem penc3 (b0 b1 b2 : Byte) : Statement (.penc3 b0 b1 b2) :=
  ⟨rfl, by simp only [encode, Request.sel, Instr.mnemonic]; decide⟩
theorem pdec1 (c0 : Byte) : Statement (.pdec1 c0) :=
  ⟨rfl, by simp only [encode, Request.sel, Instr.mnemonic]; decide⟩
theorem pdec2 (c0 c1 : Byte) : Statement (.pdec2 c0 c1) :=
  ⟨rfl, by simp only [encode, Request.sel, Instr.mnemonic]; decide⟩
theorem pdec3 (c0 c1 c2 : Byte) : Statement (.pdec3 c0 c1 c2) :=
  ⟨rfl, by simp only [encode, Request.sel, Instr.mnemonic]; decide⟩
theorem pdec4 (c0 c1 c2 c3 : Byte) : Statement (.pdec4 c0 c1 c2 c3) :=
  ⟨rfl, by simp only [encode, Request.sel, Instr.mnemonic]; decide⟩
theorem alph (i : Byte) : Statement (.alph i) :=
  ⟨rfl, by simp only [encode, Request.sel, Instr.mnemonic]; decide⟩
theorem ralph (c : Byte) : Statement (.ralph c) :=
  ⟨rfl, by simp only [encode, Request.sel, Instr.mnemonic]; decide⟩

end Sys2Proof.Laws.Selector
end

