-- ==== Sys2Proof/Laws/SubBlocks.lean ====
section
/-! SUPPORT. A data port restricted to a block's lanes (R60), and a block's response on the CORE's port again. -/

namespace Sys2Proof

/-- Restricting a port to `n` lanes keeps each of them. -/
theorem lane_setWidth (n k : Nat) (d : BitVec 40) (hk : k < n) :
    lane k ((d.setWidth (8 * n)).setWidth 40) = lane k d := by
  apply BitVec.eq_of_getLsbD_eq
  intro i hi
  simp only [lane, BitVec.getLsbD_extractLsb', BitVec.getLsbD_setWidth]
  have h1 : 8 * k + i < 8 * n := by omega
  by_cases h2 : 8 * k + i < 40
  · simp [h1, h2]
  · simp [h1, h2, BitVec.getLsbD_of_ge d (8 * k + i) (by omega)]

/-- Restricting a port to `n` lanes drops every other one. -/
theorem lane_setWidth_ge (n k : Nat) (d : BitVec 40) (hk : n ≤ k) :
    lane k ((d.setWidth (8 * n)).setWidth 40) = 0 := by
  apply BitVec.eq_of_getLsbD_eq
  intro i hi
  have h1 : ¬ 8 * k + i < 8 * n := by omega
  simp [lane, h1]

theorem takeLanes_setWidth (n m : Nat) (d : BitVec 40) (h : m ≤ n) :
    takeLanes m ((d.setWidth (8 * n)).setWidth 40) = takeLanes m d := by
  simp only [takeLanes]
  exact List.map_congr_left fun k hk => lane_setWidth n k d (by simp at hk; omega)

namespace Machine

/-- Nothing of an OK response is lost on a port with lanes enough for its elements. -/
theorem widen_restrict_okResponse (n : Nat) (ls : List Byte) (h : ls.length ≤ n) :
    (BlockResponse.restrict n (okResponse ls)).widen = okResponse ls := by
  simp only [BlockResponse.widen, BlockResponse.restrict, okResponse]
  congr 1
  apply eq_of_lanes
  intro k hk
  by_cases hn : k < n
  · rw [lane_setWidth n k _ hn]
  · rw [lane_setWidth_ge n k _ (by omega), lane_packLanes _ _ hk, List.getD_eq_default _ _ (by omega)]

/-- Nothing of an error response is lost on a block's port (R201). -/
theorem widen_restrict_errorResponse (n : Nat) (e : Status) :
    (BlockResponse.restrict n (errorResponse e)).widen = errorResponse e := by
  simp [BlockResponse.widen, BlockResponse.restrict, errorResponse]

end Machine
end Sys2Proof
end

