-- ==== Sys2Proof/Tests/Slice0.lean ====
section
/-! SUPPORT. Small tests. The expected responses are rows of spec/95_test_vectors.md (sections 1, 2.1 to 2.7 and 2.11), the
decoded words are written out from the bit layout of R62 and R63, and each witness shows that the hypotheses of a statement in
Certificates/Slice0/Obligations.lean can be met, clause by clause at a boundary. -/

namespace Sys2Proof.Tests

open Sys2Proof.Machine

/-- The state after reset with a request word driven. -/
def driven (w : Nat) : State := State.reset.withFetchWord 48 w

/-- The response one step gives to a request word. -/
def responseTo (w : Nat) : Option Response :=
  match step (driven w) with
  | .next t => some t.response
  | .fault _ => none
  | .refused _ => none

/-- The state one step leaves after a request word; the driven state where it would leave none. -/
def after (w : Nat) : State :=
  match step (driven w) with
  | .next t => t
  | .fault _ => driven w
  | .refused _ => driven w

/-! ## Decoding: op (3 bits), len (3 bits), lanes 4 to 0 (8 bits each) -/

theorem test_decode_enc4 :
    decodeTableWord 48 0b000_000_00000000_01101111_11010010_01001111_10000110 = some (.enc4 0x86 0x4F 0xD2 0x6F) := by
  decide

theorem test_decode_dec5 :
    decodeTableWord 48 0b001_000_01101111_01101100_01101100_01100101_01001000 =
      some (.dec5 0x48 0x65 0x6C 0x6C 0x6F) := by decide

theorem test_decode_penc1 :
    decodeTableWord 48 0b010_001_00000000_00000000_00000000_00000000_10101111 = some (.penc1 0xAF) := by decide

theorem test_decode_penc2 :
    decodeTableWord 48 0b010_010_00000000_00000000_00000000_10111111_10101111 = some (.penc2 0xAF 0xBF) := by decide

theorem test_decode_penc3 :
    decodeTableWord 48 0b010_011_00000000_00000000_11001111_10111111_10101111 = some (.penc3 0xAF 0xBF 0xCF) := by
  decide

theorem test_decode_pdec1 :
    decodeTableWord 48 0b011_001_00000000_00000000_00000000_00000000_00110101 = some (.pdec1 0x35) := by decide

theorem test_decode_pdec2 :
    decodeTableWord 48 0b011_010_00000000_00000000_00000000_00110010_00110101 = some (.pdec2 0x35 0x32) := by decide

theorem test_decode_pdec3 :
    decodeTableWord 48 0b011_011_00000000_00000000_00110110_01101010_01110001 = some (.pdec3 0x71 0x6A 0x36) := by
  decide

theorem test_decode_pdec4 :
    decodeTableWord 48 0b011_100_00000000_01101001_00111010_01100101_00101101 = some (.pdec4 0x2D 0x65 0x3A 0x69) := by
  decide

theorem test_decode_alph :
    decodeTableWord 48 0b100_011_11011101_11001100_10111011_10101010_00101011 = some (.alph 0x2B) := by decide

theorem test_decode_ralph :
    decodeTableWord 48 0b101_000_00000000_00000000_00000000_00000000_01001000 = some (.ralph 0x48) := by decide

/-- PENC with `len = 4` and PDEC with `len = 5` are illegal by name (R69). -/
theorem test_decode_illegal :
    decodeWord 0x140004030201 = .error .illegalRequest ∧ decodeWord 0x1D6F6C6C6548 = .error .illegalRequest := by decide

/-- A number with bit 46 set is no request word (R62). -/
theorem test_decode_too_wide : decodeWord 0x400000000000 = .error .notARequestWord := by decide

/-- The words of 95_test_vectors.md §1 are what the assembler writes (R71). -/
theorem test_encode_words :
    encodeWord (.penc3 0xAF 0xBF 0xCF) = 0x130000CFBFAF ∧ encodeWord (.dec5 0x48 0x65 0x6C 0x6C 0x6F) = 0x086F6C6C6548 := by
  decide

/-- The assembler forms of 95_test_vectors.md §1 and R104 (R71). -/
theorem test_text :
    (Instr.enc4 0x86 0x4F 0xD2 0x6F).text = "ENC4 86, 4F, D2, 6F".toList ∧
      (Instr.dec5 0x48 0x65 0x6C 0x6C 0x6F).text = "DEC5 \"Hello\"".toList ∧
      (Instr.alph 43).text = "ALPH 43".toList := by decide

/-! ## One request, one response (95_test_vectors.md §2.1 to §2.7) -/

theorem test_enc4_hello :
    responseTo 0x07006FD24F86 = some { status := 0, doutLen := 5, dout := 0x6F6C6C6548 } := by decide

theorem test_enc4_max :
    responseTo 0x0000FFFFFFFF = some { status := 0, doutLen := 5, dout := 0x3063536E25 } := by decide

theorem test_penc1_tail :
    responseTo 0x1100002211AF = some { status := 0, doutLen := 2, dout := 0x0000003235 } := by decide

theorem test_penc1_carry :
    responseTo 0x110000000055 = some { status := 0, doutLen := 2, dout := 0x0000003130 } := by decide

theorem test_penc2_tail :
    responseTo 0x12000000BFAF = some { status := 0, doutLen := 3, dout := 0x0000366A71 } := by decide

theorem test_penc2_high_byte_first :
    responseTo 0x120000000001 = some { status := 0, doutLen := 3, dout := 0x0000303331 } := by decide

theorem test_penc3_tail :
    responseTo 0x130000CFBFAF = some { status := 0, doutLen := 4, dout := 0x00693A652D } := by decide

theorem test_penc3_max :
    responseTo 0x130000FFFFFF = some { status := 0, doutLen := 4, dout := 0x0072723930 } := by decide

theorem test_dec5_max :
    responseTo 0x083063536E25 = some { status := 0, doutLen := 4, dout := 0x00FFFFFFFF } := by decide

theorem test_dec5_invalid_before_range :
    responseTo 0x082C23232323 = some { status := 2, doutLen := 0, dout := 0x0000000000 } := by decide

theorem test_pdec1_invalid_length :
    responseTo 0x190000000020 = some { status := 3, doutLen := 0, dout := 0x0000000000 } := by decide

theorem test_pdec2_upper_lanes_ignored :
    responseTo 0x1A5A59583235 = some { status := 0, doutLen := 1, dout := 0x00000000AF } := by decide

theorem test_pdec2_first_out_of_range :
    responseTo 0x1A0000003331 = some { status := 4, doutLen := 0, dout := 0x0000000000 } := by decide

theorem test_pdec3_max :
    responseTo 0x1B0000393630 = some { status := 0, doutLen := 2, dout := 0x000000FFFF } := by decide

theorem test_pdec3_first_out_of_range :
    responseTo 0x1B0000393631 = some { status := 4, doutLen := 0, dout := 0x0000000000 } := by decide

theorem test_pdec4_tail :
    responseTo 0x1C00693A652D = some { status := 0, doutLen := 3, dout := 0x0000CFBFAF } := by decide

theorem test_pdec4_invalid :
    responseTo 0x1C007E3A652D = some { status := 2, doutLen := 0, dout := 0x0000000000 } := by decide

theorem test_alph_upper_lanes_ignored :
    responseTo 0x20DDCCBBAA2B = some { status := 0, doutLen := 1, dout := 0x0000000048 } := by decide

theorem test_alph_first_invalid :
    responseTo 0x200000000055 = some { status := 4, doutLen := 0, dout := 0x0000000000 } := by decide

theorem test_ralph_highest_valid :
    responseTo 0x28000000007D = some { status := 0, doutLen := 1, dout := 0x0000000050 } := by decide

theorem test_ralph_comma :
    responseTo 0x28000000002C = some { status := 2, doutLen := 0, dout := 0x0000000000 } := by decide

theorem test_op6 :
    responseTo 0x300000000041 = some { status := 5, doutLen := 0, dout := 0x0000000000 } := by decide

theorem test_pdec_len7 :
    responseTo 0x1F0000000020 = some { status := 5, doutLen := 0, dout := 0x0000000000 } := by decide

/-- The six codes of R68 name their outcomes; the reserved codes 6 and 7 name none. -/
theorem test_status_codes :
    [0, 1, 2, 3, 4, 5, 6, 7].map Status.ofCode =
      [some .ok, some .emptyInput, some .invalidCharacter, some .invalidLength, some .outOfRange, some .illegalRequest,
        none, none] ∧ Status.outOfRange.code = 4 ∧ Status.illegalRequest.code = 5 := by decide

/-! ## Whole buffers (95_test_vectors.md §1 and §2.11) -/

/-- S4: eleven bytes encode to `HelloWorld-e:i`. -/
theorem test_host_encode :
    hostEncode [0x86, 0x4F, 0xD2, 0x6F, 0xB5, 0x59, 0xF7, 0x5B, 0xAF, 0xBF, 0xCF] =
      { status := 0, output := "HelloWorld-e:i".toList.map fun c => BitVec.ofNat 8 c.toNat } := by decide

/-- `#####Hel,o` reports OUT_OF_RANGE, the failure of its first group (R178). -/
theorem test_host_decode_first_failure :
    hostDecode ("#####Hel,o".toList.map fun c => BitVec.ofNat 8 c.toNat) = { status := 4, output := [] } := by decide

/-- `Hello04` fails at its tail, and none of its first group's bytes is delivered (R178, program P4). -/
theorem test_host_decode_tail :
    hostDecode ("Hello04".toList.map fun c => BitVec.ofNat 8 c.toNat) = { status := 4, output := [] } := by decide

/-! ## Well-formedness: an ill-formed term for each check -/

theorem smoke_instr_wellFormed (i : Instr) : i.wellFormed = true := by cases i <;> rfl

theorem smoke_wordFits : wordFits 0x400000000000 = false ∧ wordFits 0x3FFFFFFFFFFF = true := by decide

theorem smoke_lengthLegal :
    lengthLegal 2 0 = false ∧ lengthLegal 2 4 = false ∧ lengthLegal 3 5 = false ∧ lengthLegal 6 0 = false ∧
      lengthLegal 3 4 = true := by decide

theorem smoke_legal : (Request.mk 7 5 0).legal = false ∧ (Request.mk 4 5 0).legal = true := by decide

theorem smoke_assembled :
    (Request.mk 0 7 0).assembled = false ∧ (Request.mk 2 1 0x1100).assembled = false ∧
      (Request.mk 2 0 0).assembled = false ∧ (Request.mk 3 1 0x35).assembled = true := by decide

theorem smoke_response_legal :
    (Response.mk 1 0 0).legal = false ∧ (Response.mk 6 0 0).legal = false ∧ (Response.mk 0 6 0).legal = false ∧
      (Response.mk 0 1 0x100).legal = false ∧ (Response.mk 2 1 0).legal = false ∧ (Response.mk 2 0 1).legal = false ∧
      (Response.mk 0 0 0).legal = false ∧ (Response.mk 0 1 0x23).legal = true := by decide

/-! ## Witnesses: the hypotheses of each statement can be met -/

theorem witness_DecodeEncodeRoundTrip : (Instr.alph 255).wellFormed = true := rfl

/-- A request that decodes, and one that no row matches. -/
theorem witness_DecodeFollowsOperationMap :
    decode { op := 3, len := 1, din := 0x35 } = .ok (.pdec1 0x35) ∧
      decode { op := 3, len := 0, din := 0x35 } = .error .illegalRequest := by decide

/-- The boundary selectors of R69, each side. -/
theorem witness_IllegalSelectorsAnswered :
    (driven 0x300000000041).request.op = 6 ∧ (driven 0x3D0000000041).request.op = 7 ∧
      (driven 0x1000000000AF).request.len = 0 ∧ 4 ≤ (driven 0x140004030201).request.len.toNat ∧
      (driven 0x180000003235).request.len = 0 ∧ 5 ≤ (driven 0x1D6F6C6C6548).request.len.toNat ∧
      responseTo 0x140004030201 = some { status := 5, doutLen := 0, dout := 0 } ∧
      (decode (driven 0x130000CFBFAF).request).isOk = true ∧ (decode (driven 0x1C00693A652D).request).isOk = true := by
  decide

/-- Two ENC4 requests that differ in `len` and in lane 4, both stepped. -/
theorem witness_IgnoredFieldsDoNotMatter :
    (driven 0x00006FD24F86).request ≠ (driven 0x07996FD24F86).request ∧
      (driven 0x00006FD24F86).request.op = (driven 0x07996FD24F86).request.op ∧
      (∀ k < (driven 0x00006FD24F86).request.lanesRead,
        lane k (driven 0x00006FD24F86).request.din = lane k (driven 0x07996FD24F86).request.din) ∧
      step (driven 0x00006FD24F86) = .next (after 0x00006FD24F86) ∧
      step (driven 0x07996FD24F86) = .next (after 0x07996FD24F86) := by
  refine ⟨by decide, by decide, by decide, rfl, rfl⟩

theorem witness_StepRunsDecoded : decode (driven 0x13EEDDCFBFAF).request = .ok (.penc3 0xAF 0xBF 0xCF) := by decide

/-- Two states with one request, different responses on the port and different counters. -/
theorem witness_StepForgetsEarlierRequests :
    let q : Request := { op := 4, len := 0, din := 0x2B }
    let s₁ : State := { request := q, response := { status := 6, doutLen := 7, dout := 1 }, occasion := 0 }
    let s₂ : State := { request := q, response := { status := 0, doutLen := 1, dout := 0x48 }, occasion := 9 }
    s₁ ≠ s₂ ∧ s₁.request = s₂.request := by decide

/-- A step with status OK, one with an error: for StepEstablishesSafe, EmptyInputNeverReturned and ErrorsCarryNoOutput. -/
theorem witness_step_next :
    step (driven 0x00006FD24F86) = .next (after 0x00006FD24F86) ∧ (after 0x00006FD24F86).response.status = 0 ∧
      step (driven 0x082C23232323) = .next (after 0x082C23232323) ∧ (after 0x082C23232323).response.status ≠ 0 := by
  refine ⟨rfl, by decide, rfl, by decide⟩

/-- A sample at exactly `T_PROP` after driving. -/
theorem witness_SettledSampleIsTheResponse :
    Config.tProp ≤ Config.tProp ∧
      step (State.reset.drive { op := 4, len := 0, din := 84 }) =
        .next { request := { op := 4, len := 0, din := 84 }, response := { status := 0, doutLen := 1, dout := 0x23 },
                occasion := 1 } :=
  ⟨le_refl _, rfl⟩

/-- A successful step for each `op` of R48. -/
theorem witness_OutputLengths :
    [0x00006FD24F86, 0x086F6C6C6548, 0x1100000000AF, 0x1A0000003330, 0x200000000054, 0x280000000023].map
      (fun w => (responseTo w).map fun r => (r.status, r.doutLen)) =
    [some (0, 5), some (0, 4), some (0, 2), some (0, 1), some (0, 1), some (0, 1)] := by decide

/-- A request for each clause of R207: illegal, PDEC1 with a bad character, invalid characters beside a sum out of range, and
out of range alone. -/
theorem witness_ErrorPriority :
    (driven 0x170000000001).request.legal = false ∧ responseTo 0x190000000020 = some { status := 3, doutLen := 0, dout := 0 } ∧
      digitOfCode (lane 4 (driven 0x082C23232323).request.din).toNat = none ∧
      digitOfCode (lane 3 (driven 0x1C007E3A652D).request.din).toNat = none ∧
      digitOfCode (lane 0 (driven 0x28000000002C).request.din).toNat = none ∧
      responseTo 0x082323232323 = some { status := 4, doutLen := 0, dout := 0 } := by decide

/-- An ENC4 request, a legal PENC request at `len = 3` and an illegal one at `len = 4`, each stepped: for EncodersAreTotal and
EncoderOutputIsAlphabet. -/
theorem witness_encode_requests :
    (driven 0x0000FFFFFFFF).request.op = 0 ∧ (driven 0x130000FFFFFF).request.op = 2 ∧
      (driven 0x140004030201).request.op = 2 ∧
      [0x0000FFFFFFFF, 0x130000FFFFFF, 0x140004030201].map (fun w => (responseTo w).map Response.status) =
        [some 0, some 0, some 5] := by decide

/-- The selectors of the second clauses of Enc4Rule, Penc1Rule, Penc2Rule, Penc3Rule, Pdec1Rule, AlphRule and RalphRule. -/
theorem witness_selectors :
    (driven 0x07006FD24F86).request.op = 0 ∧
      ((driven 0x1100000000AF).request.op = 2 ∧ (driven 0x1100000000AF).request.len = 1) ∧
      ((driven 0x12000000BFAF).request.op = 2 ∧ (driven 0x12000000BFAF).request.len = 2) ∧
      ((driven 0x130000CFBFAF).request.op = 2 ∧ (driven 0x130000CFBFAF).request.len = 3) ∧
      ((driven 0x190000000035).request.op = 3 ∧ (driven 0x190000000035).request.len = 1) ∧
      (driven 0x230000000000).request.op = 4 ∧ (driven 0x280000000048).request.op = 5 := by decide

/-- Lists of 4, 1 and 3 bytes: for EncoderDigitsAreExact and GroupRoundTrip. -/
theorem witness_byte_groups :
    ([0xFF, 0xFF, 0xFF, 0xFF] : List Byte).length = 4 ∧ 1 ≤ ([0xFF] : List Byte).length ∧
      ([0xFF, 0xFF, 0xFF] : List Byte).length ≤ 3 := by decide

/-- `%nSc0` is the largest canonical block and `%nSc1` the first beyond it; `####,` has an invalid character. -/
theorem witness_Dec5Rule :
    digitOfCode 0x25 = some 82 ∧ digitOfCode 0x6E = some 23 ∧ digitOfCode 0x53 = some 54 ∧ digitOfCode 0x63 = some 12 ∧
      digitOfCode 0x30 = some 0 ∧ digitOfCode 0x31 = some 1 ∧ digitOfCode 0x2C = none ∧
      82 * 52200625 + 23 * 614125 + 54 * 7225 + 12 * 85 + 0 = 2 ^ 32 - 1 ∧
      82 * 52200625 + 23 * 614125 + 54 * 7225 + 12 * 85 + 1 = 2 ^ 32 ∧ (driven 0x0F6F6C6C6548).request.op = 1 := by decide

/-- `03` and `13` stand on the two sides of 256; `5,` has an invalid character. -/
theorem witness_Pdec2Rule :
    digitOfCode 0x30 = some 0 ∧ digitOfCode 0x31 = some 1 ∧ digitOfCode 0x33 = some 3 ∧ 0 + 85 * 3 = 255 ∧ 1 + 85 * 3 = 256 ∧
      digitOfCode 0x2C = none ∧ (driven 0x1A0000003330).request.op = 3 ∧ (driven 0x1A0000003330).request.len = 2 := by decide

/-- `069` and `169` stand on the two sides of 65536. -/
theorem witness_Pdec3Rule :
    digitOfCode 0x36 = some 6 ∧ digitOfCode 0x39 = some 9 ∧ 0 + 85 * 6 + 7225 * 9 = 65535 ∧ 1 + 85 * 6 + 7225 * 9 = 65536 ∧
      digitOfCode 0x7E = none ∧ (driven 0x1B0000393630).request.op = 3 ∧ (driven 0x1B0000393630).request.len = 3 := by decide

/-- `09rr` and `19rr` stand on the two sides of 16777216. -/
theorem witness_Pdec4Rule :
    digitOfCode 0x39 = some 9 ∧ digitOfCode 0x72 = some 27 ∧ 0 + 85 * 9 + 7225 * 27 + 614125 * 27 = 16777215 ∧
      1 + 85 * 9 + 7225 * 27 + 614125 * 27 = 16777216 ∧ digitOfCode 0x7F = none ∧
      (driven 0x1C0072723930).request.op = 3 ∧ (driven 0x1C0072723930).request.len = 4 := by decide

theorem witness_DecodeSumsAreBounded : digitsOf [0x23, 0x23, 0x23, 0x23, 0x23] = some [84, 84, 84, 84, 84] := by decide

theorem witness_BytesOfBigEndian : 65535 < 256 ^ 2 := by decide

/-- Both ends of each range of R100, and the addresses beyond it. -/
theorem witness_AlphRule :
    ((9 : Byte).toNat < 10 ∧ (10 : Byte).toNat < 36 ∧ (35 : Byte).toNat < 36 ∧ 36 ≤ (36 : Byte).toNat ∧ (61 : Byte).toNat < 62 ∧
      62 ≤ (62 : Byte).toNat ∧ (84 : Byte).toNat < 85 ∧ 85 ≤ (85 : Byte).toNat ∧ 85 ≤ (255 : Byte).toNat) := by decide

/-- The first and last digit's characters, and the codes beside the alphabet's ends: also for TableReadsAreInverse. -/
theorem witness_RalphRule :
    alphabet.getD 0 0 = 0x30 ∧ alphabet.getD 84 0 = 0x23 ∧ (0x21 : Byte) ∈ alphabet ∧ (0x7D : Byte) ∈ alphabet ∧
      (0x20 : Byte) ∉ alphabet ∧ (0x7E : Byte) ∉ alphabet ∧ (0xFF : Byte) ∉ alphabet := by decide

/-- The narrowest window R103 allows. -/
theorem witness_ReverseWindowIsNotObservable : 0x21 ≤ 0x21 ∧ 0x7D < 0x21 + 0x5D := by decide

/-- The largest canonical block, and the largest tails of 2 and 4 characters, are accepted. -/
theorem witness_AcceptedGroupsAreCanonical :
    decBlock [0x25, 0x6E, 0x53, 0x63, 0x30] = .ok [0xFF, 0xFF, 0xFF, 0xFF] ∧ padDec [0x30, 0x33] = .ok [0xFF] ∧
      padDec [0x30, 0x39, 0x72, 0x72] = .ok [0xFF, 0xFF, 0xFF] := by decide

/-- A nonempty buffer: for HostEncodeIssuesItsExpansion, EncodeLengthLaw, TailIsRecoveredFromLength and StreamRoundTrip. -/
theorem witness_nonempty_buffer : ([0x00] : List Byte) ≠ [] ∧ hostEncode [0x00] = { status := 0, output := [0x30, 0x30] } := by
  decide

/-- One request for each block of StandAloneBlocksAgree, the padding blocks at a legal and at an illegal length. -/
theorem witness_StandAloneBlocksAgree :
    [0x07996FD24F86, 0x0F6F6C6C6548, 0x130000CFBFAF, 0x140004030201, 0x1A5A59583235, 0x190000000020, 0x1F0000000020,
      0x20DDCCBBAA2B, 0x280000000048].map (fun w => (driven w).request.op) = [0, 1, 2, 2, 3, 3, 3, 4, 5] := by decide

/-- Rows of 95_test_vectors.md §2.4, §2.6 and §2.7 at the blocks' own ports. -/
theorem test_stand_alone_padding :
    z85PaddingEncoder 3 0xCFBFAF = { status := 0, doutLen := 4, dout := 0x693A652D } ∧
      z85PaddingEncoder 4 0x030201 = { status := 5, doutLen := 0, dout := 0 } ∧
      z85PaddingDecoder 1 0x20 = { status := 3, doutLen := 0, dout := 0 } ∧
      z85PaddingDecoder 4 0x693A652D = { status := 0, doutLen := 3, dout := 0xCFBFAF } := by decide

/-- `Hello` through base85_encoder and base85_decoder alone (95_test_vectors.md §1). -/
theorem test_stand_alone_blocks :
    base85Encoder 0x6FD24F86 = { status := 0, doutLen := 5, dout := 0x6F6C6C6548 } ∧
      base85Decoder 0x6F6C6C6548 = { status := 0, doutLen := 4, dout := 0x6FD24F86 } := by decide

/-- `Hello#` issues no request (95_test_vectors.md P4 (a)), `Hello04` two. -/
theorem test_expand_decode :
    expandDecode ("Hello#".toList.map fun c => BitVec.ofNat 8 c.toNat) = [] ∧
      expandDecode ("Hello04".toList.map fun c => BitVec.ofNat 8 c.toNat) =
        [.dec5 0x48 0x65 0x6C 0x6C 0x6F, .pdec2 0x30 0x34] := by decide

/-- `Hello#` has a length that is 1 modulo 5. -/
theorem witness_HostDecodeLengthChecks : ([0x48, 0x65, 0x6C, 0x6C, 0x6F, 0x23] : List Byte).length % 5 = 1 := by decide

/-- `He lo` fails and `Hello` succeeds, both of a length that is not 1 modulo 5: also for DecodeLengthLaw and
AcceptedTextIsCanonical. -/
theorem witness_HostDecodeReportsFirstFailure :
    ([0x48, 0x65, 0x20, 0x6C, 0x6F] : List Byte).length % 5 ≠ 1 ∧
      hostDecode [0x48, 0x65, 0x20, 0x6C, 0x6F] = { status := 2, output := [] } ∧
      hostDecode [0x48, 0x65, 0x6C, 0x6C, 0x6F] = { status := 0, output := [0x86, 0x4F, 0xD2, 0x6F] } := by decide

end Sys2Proof.Tests
end

namespace Sys2Proof

/-! ## Bit fields and concatenations as arithmetic (R9) -/

/-- A bit field `w[lo+n-1:lo]` is read by floor division and remainder (R9). -/
theorem toNat_bitField {m : Nat} (lo n : Nat) (w : BitVec m) :
    (w.extractLsb' lo n).toNat = w.toNat / 2 ^ lo % 2 ^ n := by
  rw [BitVec.extractLsb'_toNat, Nat.shiftRight_eq_div_pow]

/-- Lane `k` of a port word, as a number (R9, R10). -/
theorem toNat_lane (k : Nat) (w : BitVec 40) : (lane k w).toNat = w.toNat / 2 ^ (8 * k) % 2 ^ 8 :=
  toNat_bitField (8 * k) 8 w

/-- `{a, b}` has `a` in the more significant bits (R9). -/
theorem toNat_append_eq_add {m n : Nat} (a : BitVec m) (b : BitVec n) :
    (a ++ b).toNat = a.toNat * 2 ^ n + b.toNat := by
  rw [BitVec.toNat_append, ← Nat.shiftLeft_add_eq_or_of_lt b.isLt, Nat.shiftLeft_eq]

theorem Request.toNat_sel (r : Request) : r.sel.toNat = r.op.toNat * 2 ^ 3 + r.len.toNat :=
  toNat_append_eq_add r.op r.len

theorem Request.toNat_word (r : Request) :
    r.word.toNat = r.op.toNat * 2 ^ 43 + r.len.toNat * 2 ^ 40 + r.din.toNat := by
  rw [Request.word, toNat_append_eq_add, toNat_append_eq_add]
  omega

theorem Request.toNat_ofWord_op (w : BitVec 46) : (Request.ofWord w).op.toNat = w.toNat / 2 ^ 43 % 2 ^ 3 :=
  toNat_bitField 43 3 w

theorem Request.toNat_ofWord_len (w : BitVec 46) : (Request.ofWord w).len.toNat = w.toNat / 2 ^ 40 % 2 ^ 3 :=
  toNat_bitField 40 3 w

theorem Request.toNat_ofWord_din (w : BitVec 46) : (Request.ofWord w).din.toNat = w.toNat % 2 ^ 40 := by
  rw [Request.ofWord, toNat_bitField, pow_zero, Nat.div_one]

/-- A port word is the sum of its five lanes at their weights: they are its digits in base 256 (R9, R10). -/
theorem toNat_eq_sum_lanes (w : BitVec 40) :
    w.toNat = ∑ k ∈ Finset.range 5, (lane k w).toNat * 2 ^ (8 * k) := by
  have hw := w.isLt
  simp only [Finset.sum_range_succ, Finset.sum_range_zero, toNat_lane]
  omega

/-- A packed word is the sum of its first five listed values at the lanes' weights (R66). -/
theorem toNat_packLanes (ls : List Byte) :
    (packLanes ls).toNat = ∑ k ∈ Finset.range 5, (ls.getD k 0).toNat * 2 ^ (8 * k) := by
  rw [toNat_eq_sum_lanes]
  refine Finset.sum_congr rfl fun k hk => ?_
  rw [lane_packLanes ls k (Finset.mem_range.mp hk)]

/-- Settles O52, one rule of R9 for each clause; the packed word by its lanes. -/
theorem wordsFollowBitNotation : Obligations.WordsFollowBitNotation :=
  ⟨toNat_lane, Request.toNat_sel, Request.toNat_word,
    fun w => ⟨Request.toNat_ofWord_op w, Request.toNat_ofWord_len w, Request.toNat_ofWord_din w⟩,
    toNat_packLanes⟩

/-! ## Values, digits and sums, exact and unsigned (R9) -/

/-- The positional sum of a nonempty list, first element at the highest weight, splits off that element. -/
theorem sum_range_highFirst_cons {α : Type} (f : α → Nat) (d : α) (base : Nat) (x : α) (xs : List α) :
    ∑ k ∈ Finset.range (x :: xs).length, f ((x :: xs).getD k d) * base ^ ((x :: xs).length - 1 - k) =
      f x * base ^ xs.length + ∑ k ∈ Finset.range xs.length, f (xs.getD k d) * base ^ (xs.length - 1 - k) := by
  rw [List.length_cons, Finset.sum_range_succ', add_comm]
  congr 1
  refine Finset.sum_congr rfl fun k _ => ?_
  rw [List.getD_cons_succ, show xs.length + 1 - 1 - (k + 1) = xs.length - 1 - k by omega]

/-- `BE` is the sum of the bytes at their powers of 256 (R42). -/
theorem be_eq_sum (bs : List Byte) :
    be bs = ∑ j ∈ Finset.range bs.length, (bs.getD j 0).toNat * 256 ^ (bs.length - 1 - j) := by
  induction bs with
  | nil => rfl
  | cons b bs ih => rw [be_cons, ih, sum_range_highFirst_cons BitVec.toNat]

/-- The bytes of a value, read unsigned, are its digits in base 256 (R43). -/
theorem map_toNat_bytesBE (s m : Nat) :
    (bytesBE s m).map BitVec.toNat = (List.range m).map fun j => s / 2 ^ (8 * (m - 1 - j)) % 256 := by
  rw [bytesBE_eq, List.map_map]
  rfl

namespace Machine

/-- The encoders' division is the floor of the rational quotient (R9, R120, R122). -/
theorem floor_div_pow_eq (v e : Nat) : ⌊(v : ℚ) / 85 ^ e⌋₊ = v / 85 ^ e := by
  have h := Nat.floor_div_eq_div (K := ℚ) v (85 ^ e)
  rwa [Nat.cast_pow, Nat.cast_ofNat] at h

/-- Each character of a block is the table's code of its digit (R120). -/
theorem encBlock_eq_floor (bs : List Byte) :
    encBlock bs = (List.range 5).map fun k =>
      (aRom (BitVec.ofNat 8 (⌊(be bs : ℚ) / 85 ^ (4 - k)⌋₊ % 85))).code := by
  simp only [floor_div_pow_eq]
  rfl

/-- Each character of a tail is the table's code of its digit (R122). -/
theorem padEnc_eq_floor (bs : List Byte) :
    padEnc bs = (List.range (bs.length + 1)).map fun k =>
      (aRom (BitVec.ofNat 8 (⌊(be bs : ℚ) / 85 ^ k⌋₊ % 85))).code := by
  simp only [floor_div_pow_eq]
  rfl

/-- The block decoder's sum, exact (R140). -/
theorem sumHighFirst_eq_sum (ds : List Nat) :
    sumHighFirst ds = ∑ k ∈ Finset.range ds.length, ds.getD k 0 * 85 ^ (ds.length - 1 - k) := by
  induction ds with
  | nil => rfl
  | cons d ds ih => rw [sumHighFirst_cons, ih]; exact (sum_range_highFirst_cons id 0 85 d ds).symm

/-- The padding decoder's sum, exact (R142): its recursion is Horner's rule. -/
theorem sumLowFirst_eq_sum (ds : List Nat) :
    sumLowFirst ds = ∑ k ∈ Finset.range ds.length, ds.getD k 0 * 85 ^ k := by
  induction ds with
  | nil => rfl
  | cons d ds ih =>
    rw [sumLowFirst_cons, ih, List.length_cons, Finset.sum_range_succ', add_comm, Finset.mul_sum]
    congr 1
    · refine Finset.sum_congr rfl fun k _ => ?_
      rw [List.getD_cons_succ, pow_succ]
      ring
    · simp

/-- Settles O53: the byte values, the encoders' digits and the decoders' sums, each by its own rule. -/
theorem arithmeticIsUnsignedAndExact : Obligations.ArithmeticIsUnsignedAndExact :=
  ⟨be_eq_sum, map_toNat_bytesBE, encBlock_eq_floor, padEnc_eq_floor, sumHighFirst_eq_sum, sumLowFirst_eq_sum⟩

end Machine
end Sys2Proof

namespace Sys2Proof.Machine

/-! ## What a step does: the shape of every operation, and the one function they compute (R29, R60) -/

/-- The result of an operation: its output elements, or the error it raises (R11). No state is read (R20). -/
def resultOf : Instr → Except Status (List Byte)
  | .enc4 b0 b1 b2 b3 => .ok (encBlock [b0, b1, b2, b3])
  | .dec5 c0 c1 c2 c3 c4 => decBlock [c0, c1, c2, c3, c4]
  | .penc1 b0 => .ok (padEnc [b0])
  | .penc2 b0 b1 => .ok (padEnc [b0, b1])
  | .penc3 b0 b1 b2 => .ok (padEnc [b0, b1, b2])
  | .pdec1 _ => .error .invalidLength
  | .pdec2 c0 c1 => padDec [c0, c1]
  | .pdec3 c0 c1 c2 => padDec [c0, c1, c2]
  | .pdec4 c0 c1 c2 c3 => padDec [c0, c1, c2, c3]
  | .alph a => forwardRead a
  | .ralph c => reverseRead c

/-- Every operation ends by putting its result on the response port, and does nothing else. -/
theorem exec_eq_answer (i : Instr) (s : State) : exec i s = .next (s.answer (resultOf i)) := by
  cases i <;> rfl

/-- The frame of an operation: the response port holds its result's response, every other field is kept (R22, R49). -/
theorem exec_eq_next (i : Instr) (s : State) : exec i s = .next { s with response := responseOf (resultOf i) } := by
  rw [exec_eq_answer, State.answer_eq]

/-- Where the selector names an operation, `core` gives the response to that operation's result (R60, R63). -/
theorem coreResponse_of_decode_ok {r : Request} {i : Instr} (h : decode r = .ok i) :
    coreResponse r = responseOf (resultOf i) := by
  unfold decode at h
  split at h <;> cases h <;> simp only [coreResponse, *] <;> rfl

/-- Where the selector names no operation, `core` gives ILLEGAL_REQUEST (R202). -/
theorem coreResponse_of_decode_error {r : Request} {e : DecodeError} (h : decode r = .error e) :
    coreResponse r = errorResponse .illegalRequest := by
  unfold decode at h
  split at h <;> cases h
  unfold coreResponse
  -- Any other branch of `core` has a selector whose row `decode` has passed over.
  split <;> grind

theorem step_of_decode_ok {s : State} {i : Instr} (h : decode s.request = .ok i) : step s = exec i s := by
  rw [step, h]

theorem step_of_decode_error {s : State} {e : DecodeError} (h : decode s.request = .error e) :
    step s = rejectRequest s := by
  rw [step, h]

/-- What a step can do, in one equation: it answers a next state, whose response port holds `core` of the request and
whose other fields are kept (R29, R60). -/
theorem step_eq_next (s : State) : step s = .next { s with response := coreResponse s.request } := by
  cases h : decode s.request with
  | ok i => rw [step_of_decode_ok h, exec_eq_next, coreResponse_of_decode_ok h]
  | error e => rw [step_of_decode_error h, coreResponse_of_decode_error h]; rfl

/-! ## What a response holds (R66, R68, R201, R206) -/

/-- OK with 1 to 5 elements is a response the CORE may give (R66). -/
theorem okResponse_legal (ls : List Byte) (h1 : 1 ≤ ls.length) (h5 : ls.length ≤ 5) : (okResponse ls).legal = true := by
  have hlen : (BitVec.ofNat 3 ls.length).toNat = ls.length := by simp; omega
  have hne : BitVec.ofNat 3 ls.length ≠ 0 := fun h => by
    rw [h] at hlen
    simp at hlen
    omega
  have hlanes : ∀ k < 5, k < ls.length ∨ lane k (packLanes ls) = 0 := fun k hk =>
    (Nat.lt_or_ge k ls.length).imp_right fun hge => by rw [lane_packLanes ls k hk, List.getD_eq_default _ _ hge]
  simpa [Response.legal, hlen, h5] using ⟨hlanes, hne⟩

/-- A decoder answers one of two errors, or bytes (R147, R148): each a response the CORE may give. -/
theorem decoderResponse_legal {x : Except Status (List Byte)} {n : Nat} (h1 : 1 ≤ n) (h5 : n ≤ 5)
    (h : x = .error .invalidCharacter ∨ x = .error .outOfRange ∨ ∃ bs, bs.length = n ∧ x = .ok bs) :
    (responseOf x).legal = true := by
  rcases h with rfl | rfl | ⟨bs, rfl, rfl⟩
  · rfl
  · rfl
  · exact okResponse_legal bs h1 h5

/-- A table read answers one element, or its table's error: each a response the CORE may give. -/
theorem tableReadResponse_legal {x : Except Status (List Byte)} {e : Status} (he : (errorResponse e).legal = true)
    (h : x = .error e ∨ ∃ b, x = .ok [b]) : (responseOf x).legal = true := by
  rcases h with rfl | ⟨b, rfl⟩
  · exact he
  · exact okResponse_legal [b] (by simp) (by simp)

/-- An encoder fills one lane more than it reads: at most five. -/
theorem okResponse_padEnc_legal (bs : List Byte) (h : bs.length ≤ 4) : (okResponse (padEnc bs)).legal = true :=
  okResponse_legal _ (by simp) (by simp; omega)

/-- `core` gives only responses the CORE may give, whatever the ports hold: one sub-block, or one error, for each `op`. -/
theorem coreResponse_legal (r : Request) : (coreResponse r).legal = true := by
  unfold coreResponse
  split
  · exact okResponse_legal _ (by simp) (by simp)
  · exact decoderResponse_legal (by omega) (by omega) (decBlock_cases _)
  · split
    · exact okResponse_padEnc_legal _ (by simp; omega)
    · rfl
  · split
    · rfl
    · split
      · exact decoderResponse_legal (by simp; omega) (by simp; omega) (padDec_cases _ (by simp; omega) (by simp; omega))
      · rfl
  · exact tableReadResponse_legal rfl (forwardRead_cases _)
  · exact tableReadResponse_legal rfl (reverseRead_cases _)
  · rfl

/-! ## The statements -/

/-- Settles O14: a step leaves `core` of its request on the response port, and every such response is legal. -/
theorem stepEstablishesSafe : Obligations.StepEstablishesSafe := by
  intro s t h
  rw [step_eq_next] at h
  cases h
  exact ⟨rfl, coreResponse_legal s.request⟩

/-- Settles O10: the response is that of the operation's result, chosen before the state. -/
theorem operationsWriteOnlyTheResponse : Obligations.OperationsWriteOnlyTheResponse :=
  fun i => ⟨responseOf (resultOf i), exec_eq_next i⟩

/-- Settles O11: both steps leave `core` of the one request. -/
theorem stepForgetsEarlierRequests : Obligations.StepForgetsEarlierRequests :=
  fun s₁ s₂ h => ⟨coreResponse s₁.request, step_eq_next s₁, h ▸ step_eq_next s₂⟩

/-- Settles O7: the case of a request that names an operation. -/
theorem stepRunsDecoded : Obligations.StepRunsDecoded := fun _ _ => step_of_decode_ok

end Sys2Proof.Machine

namespace Sys2Proof

/-! ## Byte order: `BE` and `BYTES_BE` (R42, R43) -/

/-- A multiple of `256^m` leaves a division by `256^m` as a summand. -/
theorem mul_pow_add_div (a s m : Nat) : (a * 256 ^ m + s) / 256 ^ m = a + s / 256 ^ m := by
  rw [Nat.mul_comm, Nat.mul_add_div (by positivity)]

/-- The `m` bytes of a number do not see what stands above `256^m` in it (R43). -/
theorem bytesBE_mul_pow_add (a s m : Nat) : bytesBE (a * 256 ^ m + s) m = bytesBE s m := by
  induction m generalizing a with
  | zero => rfl
  | succ m ih =>
    have hsplit : a * 256 ^ (m + 1) + s = (a * 256) * 256 ^ m + s := by ring
    have hbyte : BitVec.ofNat 8 (a * 256 + s / 256 ^ m) = BitVec.ofNat 8 (s / 256 ^ m) :=
      BitVec.eq_of_toNat_eq (by simp)
    rw [hsplit, bytesBE_succ, bytesBE_succ, mul_pow_add_div, hbyte, ih]

/-- The bytes of a byte list's value are the list: its first byte is the value's quotient by `256^n` (R42, R43). -/
theorem bytesBE_be (bs : List Byte) : bytesBE (be bs) bs.length = bs := by
  induction bs with
  | nil => rfl
  | cons b bs ih =>
    have hfirst : (b.toNat * 256 ^ bs.length + be bs) / 256 ^ bs.length = b.toNat := by
      rw [mul_pow_add_div, Nat.div_eq_of_lt (be_lt bs), Nat.add_zero]
    rw [be_cons, List.length_cons, bytesBE_succ, hfirst, BitVec.ofNat_toNat, BitVec.setWidth_eq, bytesBE_mul_pow_add, ih]

/-- The `m` bytes of any number stand for its remainder by `256^m` (R42, R43). -/
theorem be_bytesBE (s m : Nat) : be (bytesBE s m) = s % 256 ^ m := by
  induction m with
  | zero => simp [bytesBE, Nat.mod_one]
  | succ m ih =>
    rw [bytesBE_succ, be_cons, bytesBE_length, ih, BitVec.toNat_ofNat, show 2 ^ 8 = 256 from rfl, Nat.mod_pow_succ,
      Nat.mul_comm, Nat.add_comm]

/-- Settles O34: each of the two inverts the other, the second on numbers that are their own remainder by `256^m`. -/
theorem bytesOfBigEndian : Obligations.BytesOfBigEndian :=
  ⟨bytesBE_be, fun s m h => by rw [be_bytesBE, Nat.mod_eq_of_lt h]⟩

end Sys2Proof

namespace Sys2Proof.Machine

/-! ## The function of R60 at each `op` -/

section
variable {r : Request}

theorem coreResponse_of_op_enc4 (h : r.op = 0) : coreResponse r = okResponse (encBlock (takeLanes 4 r.din)) := by
  simp [coreResponse, h]

theorem coreResponse_of_op_dec5 (h : r.op = 1) : coreResponse r = responseOf (decBlock (takeLanes 5 r.din)) := by
  simp [coreResponse, h]

theorem coreResponse_of_op_penc (h : r.op = 2) :
    coreResponse r = if 1 ≤ r.len.toNat ∧ r.len.toNat ≤ 3 then okResponse (padEnc (takeLanes r.len.toNat r.din))
      else errorResponse .illegalRequest := by
  simp [coreResponse, h]

theorem coreResponse_of_op_pdec (h : r.op = 3) :
    coreResponse r = if r.len.toNat = 1 then errorResponse .invalidLength
      else if 2 ≤ r.len.toNat ∧ r.len.toNat ≤ 4 then responseOf (padDec (takeLanes r.len.toNat r.din))
      else errorResponse .illegalRequest := by
  simp [coreResponse, h]

theorem coreResponse_of_op_alph (h : r.op = 4) : coreResponse r = responseOf (forwardRead (lane 0 r.din)) := by
  simp [coreResponse, h]

theorem coreResponse_of_op_ralph (h : r.op = 5) : coreResponse r = responseOf (reverseRead (lane 0 r.din)) := by
  simp [coreResponse, h]

end

/-! ## How many output lanes a successful response has (R48, R66) -/

/-- A decoder that answers OK answers its number of bytes: its two other results are errors. -/
theorem decoderResponse_doutLen {x : Except Status (List Byte)} {n : Nat}
    (h : x = .error .invalidCharacter ∨ x = .error .outOfRange ∨ ∃ bs, bs.length = n ∧ x = .ok bs)
    (hok : (responseOf x).status = 0) : (responseOf x).doutLen = BitVec.ofNat 3 n := by
  rcases h with rfl | rfl | ⟨bs, rfl, rfl⟩
  · cases hok
  · cases hok
  · rfl

/-- A table read that answers OK answers one element. -/
theorem tableReadResponse_doutLen {x : Except Status (List Byte)} {e : Status} (he : e.code ≠ 0)
    (h : x = .error e ∨ ∃ b, x = .ok [b]) (hok : (responseOf x).status = 0) : (responseOf x).doutLen = 1 := by
  rcases h with rfl | ⟨b, rfl⟩
  · exact absurd hok he
  · rfl

/-- A legal response has 0 in every lane at or above `dout_len` (R66). -/
theorem lane_dout_eq_zero_of_legal {p : Response} (h : p.legal = true) {k : Nat} (hk : k < 5)
    (hle : p.doutLen.toNat ≤ k) : lane k p.dout = 0 := by
  simp only [Response.legal, Bool.and_eq_true] at h
  obtain ⟨⟨-, hlanes⟩, -⟩ := h
  have hkLane := List.all_eq_true.mp hlanes k (List.mem_range.mpr hk)
  simpa [Nat.not_lt.mpr hle] using hkLane

section
variable {r : Request} (hok : (coreResponse r).status = 0)
include hok

/-- PENC that answers OK fills one lane more than it reads (R48); its illegal lengths are errors. -/
theorem coreResponse_doutLen_penc (h : r.op = 2) : (coreResponse r).doutLen.toNat = r.len.toNat + 1 := by
  rw [coreResponse_of_op_penc h] at hok ⊢
  split at hok
  next hlen =>
    rw [if_pos hlen, okResponse_doutLen, padEnc_length, takeLanes_length, BitVec.toNat_ofNat, Nat.mod_eq_of_lt (by omega)]
  next => cases hok

/-- PDEC that answers OK fills one lane fewer than it reads (R48); PDEC1 and the illegal lengths are errors. -/
theorem coreResponse_doutLen_pdec (h : r.op = 3) : (coreResponse r).doutLen.toNat = r.len.toNat - 1 := by
  rw [coreResponse_of_op_pdec h] at hok ⊢
  split at hok
  next => cases hok
  next hne =>
    split at hok
    next hlen =>
      have hcases := padDec_cases (takeLanes r.len.toNat r.din) (by simpa using hlen.1) (by simpa using hlen.2)
      rw [if_neg hne, if_pos hlen, decoderResponse_doutLen hcases hok, takeLanes_length, BitVec.toNat_ofNat,
        Nat.mod_eq_of_lt (by omega)]
    next => cases hok

end

/-- Settles O19: the length for each `op` by its sub-block, the lanes above by the legality of every response. -/
theorem outputLengths : Obligations.OutputLengths := by
  intro s t hstep hok
  rw [step_eq_next] at hstep
  cases hstep
  refine ⟨fun h => ?_, fun h => ?_, coreResponse_doutLen_penc hok, coreResponse_doutLen_pdec hok, fun h => ?_,
    fun h => ?_, fun k hk hle => lane_dout_eq_zero_of_legal (coreResponse_legal s.request) hk hle⟩
  · rw [coreResponse_of_op_enc4 h, okResponse_doutLen, encBlock_length]
    rfl
  · rw [coreResponse_of_op_dec5 h] at hok ⊢
    exact decoderResponse_doutLen (decBlock_cases _) hok
  · rw [coreResponse_of_op_alph h] at hok ⊢
    exact tableReadResponse_doutLen (by decide) (forwardRead_cases _) hok
  · rw [coreResponse_of_op_ralph h] at hok ⊢
    exact tableReadResponse_doutLen (by decide) (reverseRead_cases _) hok

end Sys2Proof.Machine

namespace Sys2Proof

/-! ## A request word read back (R62) -/

/-- The 48-bit number of a request word is the word: its top 2 bits are 0 (R62). -/
theorem Request.toNat_word_mod (r : Request) : r.word.toNat % 2 ^ 48 = r.word.toNat :=
  Nat.mod_eq_of_lt (r.word.isLt.trans (by decide))

/-- The number of a request word names the operation of its request. -/
theorem decodeWord_word (r : Request) : decodeWord r.word.toNat = decode r := by
  have hfits : wordFits r.word.toNat = true := decide_eq_true r.word.isLt
  rw [decodeWord, if_pos hfits, BitVec.ofNat_toNat, BitVec.setWidth_eq, Request.ofWord_word]

/-- A request that decodes is named by its word in the opcode table's numbering. -/
theorem decodeTableWord_word {r : Request} {i : Instr} (h : decode r = .ok i) :
    decodeTableWord 48 r.word.toNat = some i := by
  rw [decodeTableWord, r.toNat_word_mod, decodeWord_word, h]

/-- Driving a request's word drives the request. -/
theorem Machine.State.withFetchWord_word (s : Machine.State) (r : Request) :
    s.withFetchWord 48 r.word.toNat = s.drive r := by
  rw [withFetchWord, r.toNat_word_mod, BitVec.ofNat_toNat, BitVec.setWidth_eq, Request.ofWord_word]

/-! ## What the assembler writes (R71) -/

/-- The operands of an operation, in the order its assembler form lists them (R71). -/
def Instr.operands : Instr → List Byte
  | .enc4 b0 b1 b2 b3 => [b0, b1, b2, b3]
  | .dec5 c0 c1 c2 c3 c4 => [c0, c1, c2, c3, c4]
  | .penc1 b0 => [b0]
  | .penc2 b0 b1 => [b0, b1]
  | .penc3 b0 b1 b2 => [b0, b1, b2]
  | .pdec1 c0 => [c0]
  | .pdec2 c0 c1 => [c0, c1]
  | .pdec3 c0 c1 c2 => [c0, c1, c2]
  | .pdec4 c0 c1 c2 c3 => [c0, c1, c2, c3]
  | .alph i => [i]
  | .ralph c => [c]

theorem encode_din (i : Instr) : (encode i).din = packLanes i.operands := by cases i <;> rfl

theorem lanesWritten_encode (i : Instr) : (encode i).lanesWritten = i.operands.length := by cases i <;> rfl

theorem encode_legal (i : Instr) : (encode i).legal = true := by cases i <;> rfl

/-- Only PENC and PDEC are assembled with a length, and they do not ignore it (R64). -/
theorem encode_len_eq_zero (i : Instr) (h : (encode i).lenIgnored = true) : (encode i).len = 0 := by
  cases i with
  | enc4 | dec5 | alph | ralph => rfl
  | penc1 | penc2 | penc3 | pdec1 | pdec2 | pdec3 | pdec4 => cases h

/-- Decoding inverts the assembler: the selector names the operation, and lane `k` holds operand `k`. -/
theorem decode_encode (i : Instr) : decode (encode i) = .ok i := by
  cases i <;> simp [encode, decode, lane_packLanes]

/-- Settles O2: the port bundle by `decode_encode`, the word by reading it back. -/
theorem decodeEncodeRoundTrip : Obligations.DecodeEncodeRoundTrip :=
  fun i _ => ⟨decode_encode i, decodeTableWord_word (decode_encode i)⟩

/-- Settles O3: a lane at or above those listed lies beyond the packed operands. -/
theorem assemblerWritesZeros : Obligations.AssemblerWritesZeros := by
  refine fun i => ⟨encode_legal i, encode_len_eq_zero i, fun k hk hle => ?_⟩
  rw [lanesWritten_encode] at hle
  rw [encode_din, lane_packLanes _ k hk, List.getD_eq_default _ _ hle]

/-- Settles O8: the word drives the request, and the request decodes to the operation. -/
theorem stepRunsDrivenWord : Obligations.StepRunsDrivenWord := by
  intro i s
  rw [encodeWord, Machine.State.withFetchWord_word]
  exact Machine.step_of_decode_ok (decode_encode i)

/-- Settles O1: the decoder run on the seven words. -/
theorem specWordsDecode : Obligations.SpecWordsDecode := by
  refine ⟨?_, ?_, ?_, ?_, ?_, ?_, ?_⟩ <;> decide

/-! ## The operation map (R63) -/

/-- The mnemonic of the operation a request selects, if it selects one (R63). -/
def Request.mnemonic? (r : Request) : Option String := (decode r).toOption.map Instr.mnemonic

/-- Which operation a request selects is found from its selector alone, whatever its lanes hold (R70). -/
theorem Request.mnemonic?_din_zero (r : Request) :
    r.mnemonic? = Request.mnemonic? { r with din := 0 } := by
  simp only [Request.mnemonic?, decode]
  split <;> rfl

/-- A row matches a selector exactly when it is the row of the operation the selector names: all 64 selectors, all rows. -/
theorem matchesSel_iff_selector : ∀ op len : BitVec 3, ∀ row ∈ opcodeTable,
    row.matchesSel (op ++ len) = true ↔ Request.mnemonic? { op, len, din := 0 } = some row.mnemonic := by
  decide

theorem OpcodeRow.matchesSel_iff (r : Request) (row : OpcodeRow) (hrow : row ∈ opcodeTable) :
    row.matchesSel r.sel = true ↔ r.mnemonic? = some row.mnemonic := by
  rw [r.mnemonic?_din_zero]
  exact matchesSel_iff_selector r.op r.len row hrow

/-- Every operation has its row (R63). -/
theorem exists_opcodeRow (i : Instr) : ∃ row ∈ opcodeTable, row.mnemonic = i.mnemonic := by
  cases i <;> simp [opcodeTable, Instr.mnemonic]

/-- A request is rejected for its selector, and for nothing else (R69). -/
theorem decode_error_eq {r : Request} {e : DecodeError} (h : decode r = .error e) : e = .illegalRequest := by
  unfold decode at h
  split at h <;> cases h
  rfl

theorem Request.mnemonic?_of_decode_ok {r : Request} {i : Instr} (h : decode r = .ok i) :
    r.mnemonic? = some i.mnemonic := by
  rw [Request.mnemonic?, h]
  rfl

theorem Request.mnemonic?_eq_none_iff (r : Request) :
    r.mnemonic? = none ↔ decode r = .error .illegalRequest := by
  cases h : decode r with
  | ok i => simp [mnemonic?_of_decode_ok h]
  | error e => simp [Request.mnemonic?, h, decode_error_eq h, Except.toOption]

/-- No row matches exactly when the request selects no operation: an operation it selects would have its row. -/
theorem Request.mnemonic?_eq_none_iff_no_row (r : Request) :
    r.mnemonic? = none ↔ ∀ row ∈ opcodeTable, row.matchesSel r.sel = false := by
  constructor
  · intro hnone row hrow
    rw [Bool.eq_false_iff, ne_eq, row.matchesSel_iff r hrow, hnone]
    exact nofun
  · intro hrows
    cases h : decode r with
    | error e => rw [r.mnemonic?_eq_none_iff, h, decode_error_eq h]
    | ok i =>
      obtain ⟨row, hrow, hname⟩ := exists_opcodeRow i
      have hmatch : row.matchesSel r.sel = true := by
        rw [row.matchesSel_iff r hrow, mnemonic?_of_decode_ok h, hname]
      rw [hrows row hrow] at hmatch
      cases hmatch

/-- Settles O4: the matching rows are those with the mnemonic of the operation the request selects. -/
theorem decodeFollowsOperationMap : Obligations.DecodeFollowsOperationMap := by
  refine ⟨fun r i h row hrow => ?_, fun r => r.mnemonic?_eq_none_iff.symm.trans r.mnemonic?_eq_none_iff_no_row⟩
  rw [row.matchesSel_iff r hrow, Request.mnemonic?_of_decode_ok h, Option.some_inj, eq_comm]

end Sys2Proof

namespace Sys2Proof.Machine

/-! ## The CORE as one function of the fields it reads (R48, R60, R64, R65) -/

/-- Settles O9: what a step can do is stated by `step_eq_next`; the unit state adds nothing to it. -/
theorem stepIsCombinational : Obligations.StepIsCombinational := fun _ => step_eq_next

theorem takeLanes_congr {n : Nat} {v w : BitVec 40} (h : ∀ k < n, lane k v = lane k w) :
    takeLanes n v = takeLanes n w :=
  List.map_congr_left fun k hk => h k (List.mem_range.mp hk)

section
variable {r : Request}

/-- A PENC of a legal length reads that many lanes (R48). -/
theorem lanesRead_penc (h : r.op = 2) (hlen : 1 ≤ r.len.toNat ∧ r.len.toNat ≤ 3) : r.lanesRead = r.len.toNat := by
  obtain hl | hl | hl : r.len.toNat = 1 ∨ r.len.toNat = 2 ∨ r.len.toNat = 3 := by omega
  all_goals simp [Request.lanesRead, h, hl]

/-- A PDEC of a length it decodes reads that many lanes (R48). -/
theorem lanesRead_pdec (h : r.op = 3) (hlen : 2 ≤ r.len.toNat ∧ r.len.toNat ≤ 4) : r.lanesRead = r.len.toNat := by
  obtain hl | hl | hl : r.len.toNat = 2 ∨ r.len.toNat = 3 ∨ r.len.toNat = 4 := by omega
  all_goals simp [Request.lanesRead, h, hl]

theorem coreResponse_of_op_unassigned (h : r.op = 6 ∨ r.op = 7) : coreResponse r = errorResponse .illegalRequest := by
  rcases h with h | h <;> simp [coreResponse, h]

end

/-- Requests that agree in `op`, in the `len` of a padding operation and in the lanes read get one response. -/
theorem coreResponse_congr {r₁ r₂ : Request} (hop : r₁.op = r₂.op) (hlen : r₁.op = 2 ∨ r₁.op = 3 → r₁.len = r₂.len)
    (hlanes : ∀ k < r₁.lanesRead, lane k r₁.din = lane k r₂.din) : coreResponse r₁ = coreResponse r₂ := by
  have htake : ∀ n, r₁.lanesRead = n → takeLanes n r₁.din = takeLanes n r₂.din := by
    rintro n rfl
    exact takeLanes_congr hlanes
  rcases bits3_cases r₁.op with h | h | h | h | h | h | h | h
  · rw [coreResponse_of_op_enc4 h, coreResponse_of_op_enc4 (hop ▸ h), htake 4 (by simp [Request.lanesRead, h])]
  · rw [coreResponse_of_op_dec5 h, coreResponse_of_op_dec5 (hop ▸ h), htake 5 (by simp [Request.lanesRead, h])]
  · rw [coreResponse_of_op_penc h, coreResponse_of_op_penc (hop ▸ h), ← hlen (.inl h)]
    split
    next hlegal => rw [htake _ (lanesRead_penc h hlegal)]
    next => rfl
  · rw [coreResponse_of_op_pdec h, coreResponse_of_op_pdec (hop ▸ h), ← hlen (.inr h)]
    split
    next => rfl
    next =>
      split
      next hlegal => rw [htake _ (lanesRead_pdec h hlegal)]
      next => rfl
  · rw [coreResponse_of_op_alph h, coreResponse_of_op_alph (hop ▸ h), hlanes 0 (by simp [Request.lanesRead, h])]
  · rw [coreResponse_of_op_ralph h, coreResponse_of_op_ralph (hop ▸ h), hlanes 0 (by simp [Request.lanesRead, h])]
  · rw [coreResponse_of_op_unassigned (.inl h), coreResponse_of_op_unassigned (.inl (hop ▸ h))]
  · rw [coreResponse_of_op_unassigned (.inr h), coreResponse_of_op_unassigned (.inr (hop ▸ h))]

/-- Settles O6: both steps leave `core` of their request, and it is one response. -/
theorem ignoredFieldsDoNotMatter : Obligations.IgnoredFieldsDoNotMatter := by
  intro s₁ s₂ t₁ t₂ hop hlen hlanes h₁ h₂
  rw [step_eq_next] at h₁ h₂
  cases h₁
  cases h₂
  exact coreResponse_congr hop hlen hlanes

/-! ## The sub-blocks standing alone (R60, R106) -/

/-- Nothing of a result's response is lost on a port with lanes enough for the result's elements. -/
theorem widen_restrict_responseOf {n : Nat} {x : Except Status (List Byte)} (h : ∀ ls, x = .ok ls → ls.length ≤ n) :
    (BlockResponse.restrict n (responseOf x)).widen = responseOf x := by
  cases x with
  | ok ls => exact widen_restrict_okResponse n ls (h ls rfl)
  | error e => exact widen_restrict_errorResponse n e

/-- A block's elements are four at most (R140). -/
theorem length_of_decBlock_ok {cs ls : List Byte} (h : decBlock cs = .ok ls) : ls.length ≤ 4 := by
  rcases decBlock_cases cs with he | he | ⟨bs, hlen, he⟩ <;> rw [he] at h <;> cases h
  exact hlen.le

theorem padDec_of_length_one {cs : List Byte} (h : cs.length = 1) : padDec cs = .error .invalidLength := by
  rw [padDec, if_pos h]

theorem padDec_illegal {cs : List Byte} (h1 : cs.length ≠ 1) (h : ¬ (2 ≤ cs.length ∧ cs.length ≤ 4)) :
    padDec cs = .error .illegalRequest := by
  rw [padDec, if_neg h1, if_neg h]

/-- A tail's elements are three at most (R142). -/
theorem length_of_padDec_ok {cs ls : List Byte} (h : padDec cs = .ok ls) : ls.length ≤ 3 := by
  by_cases h1 : cs.length = 1
  · rw [padDec_of_length_one h1] at h
    cases h
  by_cases hlen : 2 ≤ cs.length ∧ cs.length ≤ 4
  · rcases padDec_cases cs hlen.1 hlen.2 with he | he | ⟨bs, hbs, he⟩ <;> rw [he] at h <;> cases h
    omega
  · rw [padDec_illegal h1 hlen] at h
    cases h

/-- On the CORE's port PDEC is the padding decoder at every length, legal or not (R142, R143, R202). -/
theorem coreResponse_of_op_pdec_eq_padDec {r : Request} (h : r.op = 3) :
    coreResponse r = responseOf (padDec (takeLanes r.len.toNat r.din)) := by
  rw [coreResponse_of_op_pdec h]
  split
  next h1 => rw [padDec_of_length_one (by simpa using h1)]; rfl
  next h1 =>
    split
    next => rfl
    next hlen => rw [padDec_illegal (by simpa using h1) (by simpa using hlen)]; rfl

/-- The padding decoder answers from four lanes at most: a longer group is illegal whatever it holds (R64, R69). -/
theorem padDec_takeLanes_setWidth (n : Nat) (d : BitVec 40) :
    padDec (takeLanes n ((d.setWidth 32).setWidth 40)) = padDec (takeLanes n d) := by
  rcases Nat.lt_or_ge 4 n with hn | hn
  · rw [padDec_illegal (by simp; omega) (by simp; omega), padDec_illegal (by simp; omega) (by simp; omega)]
  · exact congrArg padDec (takeLanes_setWidth 4 n d hn)

theorem coreResponse_eq_base85Encoder (r : Request) (h : r.op = 0) :
    coreResponse r = (base85Encoder (r.din.setWidth 32)).widen := by
  have hlanes : takeLanes 4 ((r.din.setWidth 32).setWidth 40) = takeLanes 4 r.din := takeLanes_setWidth 4 4 r.din le_rfl
  rw [coreResponse_of_op_enc4 h, base85Encoder, hlanes, widen_restrict_okResponse 5 _ (by simp)]

theorem coreResponse_eq_base85Decoder (r : Request) (h : r.op = 1) :
    coreResponse r = (base85Decoder r.din).widen := by
  rw [coreResponse_of_op_dec5 h, base85Decoder, widen_restrict_responseOf fun _ => length_of_decBlock_ok]

theorem coreResponse_eq_z85PaddingEncoder (r : Request) (h : r.op = 2) :
    coreResponse r = (z85PaddingEncoder r.len (r.din.setWidth 24)).widen := by
  rw [coreResponse_of_op_penc h, z85PaddingEncoder]
  split
  next hlen =>
    have hlanes : takeLanes r.len.toNat ((r.din.setWidth 24).setWidth 40) = takeLanes r.len.toNat r.din :=
      takeLanes_setWidth 3 _ r.din hlen.2
    rw [hlanes, widen_restrict_okResponse 4 _ (by simp; omega)]
  next => rw [widen_restrict_errorResponse]

theorem coreResponse_eq_z85PaddingDecoder (r : Request) (h : r.op = 3) :
    coreResponse r = (z85PaddingDecoder r.len (r.din.setWidth 32)).widen := by
  rw [coreResponse_of_op_pdec_eq_padDec h, z85PaddingDecoder, padDec_takeLanes_setWidth,
    widen_restrict_responseOf fun _ => length_of_padDec_ok]

/-- OK with one element: the element stands in lane 0, and the other lanes are 0 (R66). -/
theorem okResponse_singleton (b : Byte) : okResponse [b] = { status := 0, doutLen := 1, dout := b.setWidth 40 } := by
  simp [okResponse, packLanes, Status.code]

theorem coreResponse_eq_aRom (r : Request) (h : r.op = 4) :
    coreResponse r =
      if (aRom (lane 0 r.din)).ok then { status := 0, doutLen := 1, dout := (aRom (lane 0 r.din)).code.setWidth 40 }
      else { status := 4, doutLen := 0, dout := 0 } := by
  rw [coreResponse_of_op_alph h, forwardRead]
  split
  · exact okResponse_singleton _
  · rfl

theorem coreResponse_eq_rRom (r : Request) (h : r.op = 5) :
    coreResponse r =
      if (rRom (lane 0 r.din)).valid then
        { status := 0, doutLen := 1, dout := (rRom (lane 0 r.din)).digit.setWidth 40 }
      else { status := 2, doutLen := 0, dout := 0 } := by
  rw [coreResponse_of_op_ralph h, reverseRead]
  split
  · rw [responseOf, okResponse_singleton, BitVec.setWidth_setWidth (by omega)]
  · rfl

/-- Settles O51, one block for each clause. -/
theorem standAloneBlocksAgree : Obligations.StandAloneBlocksAgree :=
  ⟨coreResponse_eq_base85Encoder, coreResponse_eq_base85Decoder, coreResponse_eq_z85PaddingEncoder,
    coreResponse_eq_z85PaddingDecoder, coreResponse_eq_aRom, coreResponse_eq_rRom⟩

end Sys2Proof.Machine

namespace Sys2Proof

/-! ## The two tables as mappings (R100, R102) -/

/-- The characters of the alphabet are its entries at the digits. -/
theorem mem_alphabet_iff (c : Byte) : c ∈ alphabet ↔ ∃ d < 85, alphabet.getD d 0 = c := by
  simp only [List.mem_iff_getElem, alphabet_length]
  constructor
  · rintro ⟨d, hd, rfl⟩
    exact ⟨d, hd, List.getD_eq_getElem _ _ hd⟩
  · rintro ⟨d, hd, rfl⟩
    exact ⟨d, hd, (List.getD_eq_getElem _ _ hd).symm⟩

theorem mem_alphabet_of_digitOfCode {c : Byte} {d : BitVec 7} (h : digitOfCode c.toNat = some d) : c ∈ alphabet :=
  (mem_alphabet_iff c).mpr ⟨d.toNat, digitOfCode_lt _ d h, alphabet_digitOfCode c d h⟩

theorem digitOfCode_eq_none_of_not_mem {c : Byte} (h : c ∉ alphabet) : digitOfCode c.toNat = none := by
  cases hd : digitOfCode c.toNat with
  | none => rfl
  | some d => exact absurd (mem_alphabet_of_digitOfCode hd) h

/-- Every character of the alphabet lies in the narrowest window R103 allows. -/
theorem alphabet_bounds : ∀ c ∈ alphabet, 0x21 ≤ c.toNat ∧ c.toNat ≤ 0x7D := by decide

/-! ### The ranges of the forward alphabet (R100) -/

theorem alphabet_numerals (i : Byte) (h : i.toNat < 10) : alphabet.getD i.toNat 0 = 0x30 + i := by
  have key : ∀ n < 10, alphabet.getD n 0 = 0x30 + BitVec.ofNat 8 n := by decide
  simpa using key i.toNat h

theorem alphabet_lowercase (i : Byte) (hlo : 10 ≤ i.toNat) (h : i.toNat < 36) :
    alphabet.getD i.toNat 0 = 0x61 + (i - 10) := by
  have key : ∀ n < 36, 10 ≤ n → alphabet.getD n 0 = 0x61 + (BitVec.ofNat 8 n - 10) := by decide
  simpa using key i.toNat h hlo

theorem alphabet_uppercase (i : Byte) (hlo : 36 ≤ i.toNat) (h : i.toNat < 62) :
    alphabet.getD i.toNat 0 = 0x41 + (i - 36) := by
  have key : ∀ n < 62, 36 ≤ n → alphabet.getD n 0 = 0x41 + (BitVec.ofNat 8 n - 36) := by decide
  simpa using key i.toNat h hlo

/-- From digit 62 on the alphabet is the 23 punctuation characters. -/
theorem alphabet_punctuation (n : Nat) (hlo : 62 ≤ n) : alphabet.getD n 0 =
    ([0x2E, 0x2D, 0x3A, 0x2B, 0x3D, 0x5E, 0x21, 0x2F, 0x2A, 0x3F, 0x26, 0x3C, 0x3E, 0x28, 0x29, 0x5B, 0x5D, 0x7B, 0x7D,
      0x40, 0x25, 0x24, 0x23] : List Byte).getD (n - 62) 0 := by
  obtain ⟨k, rfl⟩ := Nat.exists_eq_add_of_le hlo
  rw [Nat.add_sub_cancel_left, Nat.add_comm]
  rfl

/-! ### The window of the reverse table (R103) -/

theorem rRomWindow_of_none (shift depth : Nat) {c : Byte} (h : digitOfCode c.toNat = none) :
    rRomWindow shift depth c = { valid := false, digit := 0 } := by
  unfold rRomWindow
  dsimp only
  split
  next => rfl
  next hin =>
    have hslot : ((c.toNat : Int) - shift).toNat + shift = c.toNat := by omega
    rw [hslot, h]

theorem rRomWindow_of_some {shift depth : Nat} {c : Byte} {d : BitVec 7} (h : digitOfCode c.toNat = some d)
    (hlo : shift ≤ c.toNat) (hhi : c.toNat < shift + depth) :
    rRomWindow shift depth c = { valid := true, digit := d } := by
  have hslot : ((c.toNat : Int) - shift).toNat + shift = c.toNat := by omega
  unfold rRomWindow
  dsimp only
  rw [if_neg (by omega), hslot, h]

/-- Settles O37: a code with a digit is a character of the alphabet, so it lies in every window R103 allows; a code
without one is invalid in any window. -/
theorem reverseWindowIsNotObservable : Obligations.ReverseWindowIsNotObservable := by
  intro shift depth c hshift hend
  cases hd : digitOfCode c.toNat with
  | none => rw [rRomWindow_of_none shift depth hd, rRom_of_none c hd]
  | some d =>
    obtain ⟨hlo, hhi⟩ := alphabet_bounds c (mem_alphabet_of_digitOfCode hd)
    rw [rRomWindow_of_some hd (hshift.trans hlo) (hhi.trans_lt hend), rRom_of_some c d hd]

end Sys2Proof

namespace Sys2Proof.Machine

/-! ## How an operation ends, from its result (R66, R201) -/

section
variable {i : Instr} {ls : List Byte} {e : Status}

theorem exec_eq_respond (h : resultOf i = .ok ls) (s : State) : exec i s = .next (s.respond ls) := by
  rw [exec_eq_answer, h, State.answer_ok]

theorem exec_eq_raise (h : resultOf i = .error e) (s : State) : exec i s = .next (s.raise e) := by
  rw [exec_eq_answer, h, State.answer_error]

theorem exec_respondsOk (h : resultOf i = .ok ls) (hlen : ls.length ≤ 5) (s : State) : RespondsOk (exec i s) s ls :=
  exec_eq_respond h s ▸ respondsOk_respond s ls hlen

theorem exec_respondsError (h : resultOf i = .error e) (s : State) : RespondsError (exec i s) s e.code :=
  exec_eq_raise h s ▸ respondsError_raise s e

end

/-- An operation that responds with values leaves the first of them in lane 0 (R61). -/
theorem lane_zero_respond (s : State) (b : Byte) (bs : List Byte) :
    lane 0 (s.respond (b :: bs)).response.dout = b :=
  lane_zero_packLanes b bs

/-! ## The table reads (R101, R104) -/

theorem resultOf_alph_of_lt {i : Byte} (h : i.toNat < 85) : resultOf (.alph i) = .ok [alphabet.getD i.toNat 0] := by
  simp [resultOf, forwardRead, aRom_of_lt i h]

theorem resultOf_alph_of_ge {i : Byte} (h : 85 ≤ i.toNat) : resultOf (.alph i) = .error .outOfRange := by
  simp [resultOf, forwardRead, aRom_of_ge i h]

/-- The digit's 7 bits hold every digit below 85, so its 8 bits are the digit's. -/
theorem resultOf_ralph_alphabet {d : Nat} (h : d < 85) :
    resultOf (.ralph (alphabet.getD d 0)) = .ok [BitVec.ofNat 8 d] := by
  have hdigit : (BitVec.ofNat 7 d).setWidth 8 = BitVec.ofNat 8 d := by
    apply BitVec.eq_of_toNat_eq
    simp
    omega
  simp only [resultOf, reverseRead, rRom_of_some _ _ (digitOfCode_alphabet d h), hdigit, if_true]

theorem resultOf_ralph_of_not_mem {c : Byte} (h : c ∉ alphabet) : resultOf (.ralph c) = .error .invalidCharacter := by
  simp [resultOf, reverseRead, rRom_of_none c (digitOfCode_eq_none_of_not_mem h)]

theorem exec_alph_respondsOk {i c : Byte} (h : i.toNat < 85) (hc : alphabet.getD i.toNat 0 = c) (s : State) :
    RespondsOk (exec (.alph i) s) s [c] :=
  hc ▸ exec_respondsOk (resultOf_alph_of_lt h) (by simp) s

theorem exec_ralph_respondsOk {c : Byte} {d : Nat} (h : d < 85) (hc : alphabet.getD d 0 = c) (s : State) :
    RespondsOk (exec (.ralph c) s) s [BitVec.ofNat 8 d] :=
  hc ▸ exec_respondsOk (resultOf_ralph_alphabet h) (by simp) s

/-- Settles O35: a digit reads its entry of the alphabet, which the range it lies in names. -/
theorem alphRule : Obligations.AlphRule := by
  refine ⟨fun i s => ⟨fun h => ?_, fun hlo h => ?_, fun hlo h => ?_, fun hlo h => ?_, fun h => ?_⟩,
    fun s h => step_of_decode_ok (decode_alph s.request h)⟩
  · exact exec_alph_respondsOk (by omega) (alphabet_numerals i h) s
  · exact exec_alph_respondsOk (by omega) (alphabet_lowercase i hlo h) s
  · exact exec_alph_respondsOk (by omega) (alphabet_uppercase i hlo h) s
  · exact exec_alph_respondsOk h (alphabet_punctuation i.toNat hlo) s
  · exact exec_respondsError (resultOf_alph_of_ge h) s

/-- Settles O36: the reverse table gives a character its position, and no other code a digit. -/
theorem ralphRule : Obligations.RalphRule :=
  ⟨fun _ _ s h hc => exec_ralph_respondsOk h hc s,
    fun _ s h => exec_respondsError (resultOf_ralph_of_not_mem h) s,
    fun s h => step_of_decode_ok (decode_ralph s.request h)⟩

/-- Settles O38: the first read leaves its one element in lane 0, and the second read maps it back. -/
theorem tableReadsAreInverse : Obligations.TableReadsAreInverse := by
  constructor
  · intro i s h
    refine ⟨_, exec_eq_respond (resultOf_alph_of_lt h) s, ?_⟩
    rw [lane_zero_respond]
    simpa using exec_ralph_respondsOk h rfl (s.respond [alphabet.getD i.toNat 0])
  · intro c s hc
    obtain ⟨d, hd, rfl⟩ := (mem_alphabet_iff c).mp hc
    have htoNat : (BitVec.ofNat 8 d).toNat = d := by simp; omega
    refine ⟨_, exec_eq_respond (resultOf_ralph_alphabet hd) s, ?_⟩
    rw [lane_zero_respond]
    exact exec_alph_respondsOk (htoNat.trans_lt hd) (by rw [htoNat]) _

end Sys2Proof.Machine

namespace Sys2Proof

/-! ## Digits in base 85 (R126) -/

/-- The first `n` digits of a number in a base stand for its remainder by the base's `n`-th power. -/
theorem sum_digits_eq_mod_pow (v b n : Nat) : ∑ k ∈ Finset.range n, (v / b ^ k % b) * b ^ k = v % b ^ n := by
  induction n with
  | zero => rw [Finset.sum_range_zero, pow_zero, Nat.mod_one]
  | succ n ih => rw [Finset.sum_range_succ, ih, Nat.mod_pow_succ, Nat.mul_comm]

/-- A number below `b^n` is the sum of its `n` digits in base `b`, the digit of weight 1 first. -/
theorem eq_sum_digits_lowFirst {v b n : Nat} (h : v < b ^ n) :
    v = ∑ k ∈ Finset.range n, (v / b ^ k % b) * b ^ k := by
  rw [sum_digits_eq_mod_pow, Nat.mod_eq_of_lt h]

/-- A number below `b^n` is the sum of its `n` digits in base `b`, the digit of highest weight first. -/
theorem eq_sum_digits_highFirst {v b n : Nat} (h : v < b ^ n) :
    v = ∑ k ∈ Finset.range n, (v / b ^ (n - 1 - k) % b) * b ^ (n - 1 - k) := by
  rw [Finset.sum_range_reflect fun k => (v / b ^ k % b) * b ^ k]
  exact eq_sum_digits_lowFirst h

/-- A remainder by 85 fits a byte, as an address of the alphabet. -/
theorem toNat_ofNat_mod_radix (x : Nat) : (BitVec.ofNat 8 (x % 85)).toNat = x % 85 := by
  rw [BitVec.toNat_ofNat]
  omega

theorem aRom_mod_radix_ok (x : Nat) : (aRom (BitVec.ofNat 8 (x % 85))).ok = true := by
  rw [aRom_of_lt _ (by rw [toNat_ofNat_mod_radix]; omega)]

/-- A block's value is below `2^32` (R126). -/
theorem be_block_lt {bs : List Byte} (h : bs.length = 4) : be bs < 2 ^ 32 := by
  have hbe := be_lt bs
  rwa [h] at hbe

/-- Five digits hold a block: `2^32` is below `85^5` (R126). -/
theorem be_block_lt_pow_radix {bs : List Byte} (h : bs.length = 4) : be bs < 85 ^ 5 :=
  (be_block_lt h).trans (by decide)

/-- `n + 1` digits hold a tail of `n` bytes: `256^n` is below `85^(n+1)` for 1 to 3 bytes (R126). -/
theorem be_tail_lt_pow_radix {bs : List Byte} (h : bs.length ≤ 3) : be bs < 85 ^ (bs.length + 1) := by
  have hpow : ∀ n ≤ 3, 256 ^ n < 85 ^ (n + 1) := by decide
  exact (be_lt bs).trans (hpow bs.length h)

/-- Settles O26: a value below the power of 85 that its digits reach is the sum of its digits. -/
theorem encoderDigitsAreExact : Obligations.EncoderDigitsAreExact := by
  refine ⟨fun bs h => ⟨be_block_lt h, ?_, eq_sum_digits_highFirst (be_block_lt_pow_radix h)⟩,
    fun bs _ h => ⟨be_lt bs, be_tail_lt_pow_radix h, eq_sum_digits_lowFirst (be_tail_lt_pow_radix h)⟩,
    aRom_mod_radix_ok⟩
  have hbe := be_block_lt h
  omega

end Sys2Proof

namespace Sys2Proof.Machine

/-! ## The encoders' characters (R120, R122, R127) -/

theorem charOfDigit_mod_radix (x : Nat) : charOfDigit (x % 85) = alphabet.getD (x % 85) 0 :=
  charOfDigit_eq _ (Nat.mod_lt x (by decide))

theorem charOfDigit_mod_radix_mem_alphabet (x : Nat) : charOfDigit (x % 85) ∈ alphabet :=
  (mem_alphabet_iff _).mpr ⟨x % 85, Nat.mod_lt x (by decide), (charOfDigit_mod_radix x).symm⟩

theorem mem_alphabet_of_mem_encBlock {bs : List Byte} {c : Byte} (h : c ∈ encBlock bs) : c ∈ alphabet := by
  obtain ⟨k, -, rfl⟩ := List.mem_map.mp h
  exact charOfDigit_mod_radix_mem_alphabet _

theorem mem_alphabet_of_mem_padEnc {bs : List Byte} {c : Byte} (h : c ∈ padEnc bs) : c ∈ alphabet := by
  obtain ⟨k, -, rfl⟩ := List.mem_map.mp h
  exact charOfDigit_mod_radix_mem_alphabet _

/-- The characters of a block, the digit of weight `85^4` first (R120). -/
theorem encBlock_eq_alphabet (bs : List Byte) :
    encBlock bs = [alphabet.getD (be bs / 52200625 % 85) 0, alphabet.getD (be bs / 614125 % 85) 0,
      alphabet.getD (be bs / 7225 % 85) 0, alphabet.getD (be bs / 85 % 85) 0, alphabet.getD (be bs % 85) 0] := by
  simp [encBlock_eq, charOfDigit_mod_radix]

/-- The characters of a tail, the digit of weight 1 first (R122). -/
theorem padEnc_eq_alphabet (bs : List Byte) :
    padEnc bs = (List.range (bs.length + 1)).map fun k => alphabet.getD (be bs / 85 ^ k % 85) 0 :=
  List.map_congr_left fun k _ => charOfDigit_mod_radix (be bs / 85 ^ k)

/-- The value of four bytes at their weights (R42). -/
theorem be_four (b0 b1 b2 b3 : Byte) :
    be [b0, b1, b2, b3] = b0.toNat * 2 ^ 24 + b1.toNat * 2 ^ 16 + b2.toNat * 2 ^ 8 + b3.toNat := by
  simp [be_cons]
  omega

/-- Settles O22: `ENC_BLOCK`'s characters, with the value of the four bytes written out. -/
theorem enc4Rule : Obligations.Enc4Rule := by
  refine ⟨fun b0 b1 b2 b3 s => exec_respondsOk ?_ (by simp) s, fun s h => step_of_decode_ok (decode_enc4 s.request h)⟩
  rw [resultOf, encBlock_eq_alphabet, be_four]

/-- Settles O23: `PAD_ENC`'s characters for one byte. -/
theorem penc1Rule : Obligations.Penc1Rule := by
  refine ⟨fun b0 s => exec_respondsOk ?_ (by simp) s, fun s h hl => step_of_decode_ok (decode_penc1 s.request h hl)⟩
  simp [resultOf, padEnc_eq_alphabet, be_cons, List.range_succ]

/-- Settles O24: `PAD_ENC`'s characters for two bytes. -/
theorem penc2Rule : Obligations.Penc2Rule := by
  refine ⟨fun b0 b1 s => exec_respondsOk ?_ (by simp) s,
    fun s h hl => step_of_decode_ok (decode_penc2 s.request h hl)⟩
  simp [resultOf, padEnc_eq_alphabet, be_cons, List.range_succ]

/-- Settles O25: `PAD_ENC`'s characters for three bytes. -/
theorem penc3Rule : Obligations.Penc3Rule := by
  refine ⟨fun b0 b1 b2 s => exec_respondsOk ?_ (by simp) s,
    fun s h hl => step_of_decode_ok (decode_penc3 s.request h hl)⟩
  simp [resultOf, padEnc_eq_alphabet, be_cons, List.range_succ, Nat.add_assoc]

/-! ## What an encode request outputs (R127, R128) -/

/-- PENC answers OK exactly at its legal lengths, and ILLEGAL_REQUEST at the others (R64, R128). -/
theorem coreResponse_status_penc {r : Request} (h : r.op = 2) :
    (coreResponse r).status = if 1 ≤ r.len.toNat ∧ r.len.toNat ≤ 3 then 0 else 5 := by
  rw [coreResponse_of_op_penc h]
  split <;> rfl

/-- Settles O21: ENC4's response is OK, and PENC's status is a function of `len` alone. -/
theorem encodersAreTotal : Obligations.EncodersAreTotal := by
  intro s t hstep
  rw [step_eq_next] at hstep
  cases hstep
  refine ⟨fun h => ?_, fun h => ?_⟩
  · rw [coreResponse_of_op_enc4 h, okResponse_status]
  · rw [coreResponse_status_penc h]
    split
    next hlen => exact ⟨iff_of_true rfl hlen, .inl rfl⟩
    next hlen => exact ⟨iff_of_false (by decide) hlen, .inr rfl⟩

/-- A lane below `dout_len` of an OK response holds one of the listed elements (R66). -/
theorem lane_okResponse_mem {ls : List Byte} {k : Nat} (hls : ls.length ≤ 5)
    (hk : k < (okResponse ls).doutLen.toNat) : lane k (okResponse ls).dout ∈ ls := by
  rw [okResponse_doutLen, BitVec.toNat_ofNat, Nat.mod_eq_of_lt (by omega)] at hk
  rw [okResponse_dout, lane_packLanes ls k (by omega), List.getD_eq_getElem _ _ hk]
  exact List.getElem_mem hk

/-- Settles O27: a lane below `dout_len` holds a character of the sub-block, and an error has no such lane. -/
theorem encoderOutputIsAlphabet : Obligations.EncoderOutputIsAlphabet := by
  intro s t hop hstep
  rw [step_eq_next] at hstep
  cases hstep
  intro k hk
  dsimp only at hk ⊢
  rcases hop with h | h
  · rw [coreResponse_of_op_enc4 h] at hk ⊢
    exact mem_alphabet_of_mem_encBlock (lane_okResponse_mem (by simp) hk)
  · rw [coreResponse_of_op_penc h] at hk ⊢
    split at hk
    next hlen =>
      rw [if_pos hlen]
      exact mem_alphabet_of_mem_padEnc (lane_okResponse_mem (by simp; omega) hk)
    next => exact absurd hk (Nat.not_lt_zero k)

end Sys2Proof.Machine

namespace Sys2Proof

/-! ## Digits read as a number, in either order (R44, R150) -/

/-- The `n` digits of a number in base 85, the digit of weight 1 first. -/
def lowDigits (v n : Nat) : List Nat := (List.range n).map fun k => v / 85 ^ k % 85

@[simp] theorem lowDigits_length (v n : Nat) : (lowDigits v n).length = n := by simp [lowDigits]

theorem lt_of_mem_lowDigits {v n d : Nat} (h : d ∈ lowDigits v n) : d < 85 := by
  obtain ⟨k, -, rfl⟩ := List.mem_map.mp h
  exact Nat.mod_lt _ (by decide)

namespace Machine

/-- The padding decoder's sum is the library's reading of a digit list. -/
theorem sumLowFirst_eq_ofDigits (ds : List Nat) : sumLowFirst ds = Nat.ofDigits 85 ds := by
  induction ds with
  | nil => rfl
  | cons d ds ih => rw [sumLowFirst_cons, ih, Nat.ofDigits_cons]

/-- The two digit orders are each other's reverse (R44). -/
theorem sumHighFirst_eq_sumLowFirst_reverse (ds : List Nat) : sumHighFirst ds = sumLowFirst ds.reverse := by
  rw [sumLowFirst_eq_ofDigits]
  induction ds with
  | nil => rfl
  | cons d ds ih => rw [sumHighFirst_cons, ih, Nat.ofDigits_reverse_cons, Nat.mul_comm, Nat.add_comm]

theorem sumLowFirst_lt {ds : List Nat} (h : ∀ d ∈ ds, d < 85) : sumLowFirst ds < 85 ^ ds.length := by
  rw [sumLowFirst_eq_ofDigits]
  exact Nat.ofDigits_lt_base_pow_length (by decide) h

theorem sumHighFirst_lt {ds : List Nat} (h : ∀ d ∈ ds, d < 85) : sumHighFirst ds < 85 ^ ds.length := by
  rw [sumHighFirst_eq_sumLowFirst_reverse, ← List.length_reverse]
  exact sumLowFirst_lt fun d hd => h d (List.mem_reverse.mp hd)

/-- A number below `85^n` is the sum of its `n` digits. -/
theorem sumLowFirst_lowDigits {v n : Nat} (h : v < 85 ^ n) : sumLowFirst (lowDigits v n) = v := by
  rw [sumLowFirst_eq_sum, lowDigits_length]
  refine .trans (Finset.sum_congr rfl fun k hk => ?_) (eq_sum_digits_lowFirst h).symm
  rw [lowDigits, List.getD_eq_getElem _ _ (by simpa using hk), List.getElem_map, List.getElem_range]

/-- The digits of a sum of digits are those digits: two digit lists of one length with one sum are equal. -/
theorem lowDigits_sumLowFirst {ds : List Nat} (h : ∀ d ∈ ds, d < 85) : lowDigits (sumLowFirst ds) ds.length = ds := by
  have hsum := sumLowFirst_lowDigits (sumLowFirst_lt h)
  rw [sumLowFirst_eq_ofDigits (lowDigits _ _), sumLowFirst_eq_ofDigits ds] at hsum
  rw [sumLowFirst_eq_ofDigits ds]
  exact Nat.ofDigits_inj_of_len_eq (by decide) (by simp) (fun _ => lt_of_mem_lowDigits) h hsum

/-- Settles O33: valid lookups give as many digits as characters, each below 85. -/
theorem decodeSumsAreBounded : Obligations.DecodeSumsAreBounded := by
  intro cs ds h
  obtain ⟨rfl, hlt⟩ := digitsOf_eq_some cs ds h
  rw [List.length_map]
  exact ⟨rfl, sumHighFirst_lt hlt, sumLowFirst_lt hlt⟩

/-! ## The encoders' digits, and what the decoders do with a group's digits (R120, R122, R140, R142) -/

/-- A tail's characters are its value's digits, the digit of weight 1 first (R122). -/
theorem padEnc_eq_lowDigits (bs : List Byte) : padEnc bs = (lowDigits (be bs) (bs.length + 1)).map charOfDigit := by
  rw [lowDigits, List.map_map]
  rfl

/-- A block's characters are its value's digits in the other order (R120). -/
theorem encBlock_eq_lowDigits (bs : List Byte) : encBlock bs = (lowDigits (be bs) 5).reverse.map charOfDigit := by
  simp [encBlock_eq, lowDigits, List.range_succ]

theorem digitsOf_padEnc (bs : List Byte) : digitsOf (padEnc bs) = some (lowDigits (be bs) (bs.length + 1)) := by
  rw [padEnc_eq_lowDigits]
  exact digitsOf_map_charOfDigit _ fun _ => lt_of_mem_lowDigits

theorem digitsOf_encBlock (bs : List Byte) : digitsOf (encBlock bs) = some (lowDigits (be bs) 5).reverse := by
  rw [encBlock_eq_lowDigits]
  exact digitsOf_map_charOfDigit _ fun _ hd => lt_of_mem_lowDigits (List.mem_reverse.mp hd)

theorem decBlock_of_digits {cs : List Byte} {ds : List Nat} (h : digitsOf cs = some ds) :
    decBlock cs = bytesOfSum (sumHighFirst ds) 4 := by
  rw [decBlock, h]

theorem padDec_of_digits {cs : List Byte} {ds : List Nat} (h2 : 2 ≤ cs.length) (h4 : cs.length ≤ 4)
    (h : digitsOf cs = some ds) : padDec cs = bytesOfSum (sumLowFirst ds) (cs.length - 1) := by
  rw [padDec_eq cs h2 h4, h]

/-- The range check answers exactly the bytes, `m` of them, that stand for the sum (R43, R148). -/
theorem bytesOfSum_eq_ok_iff {s m : Nat} {bs : List Byte} : bytesOfSum s m = .ok bs ↔ bs.length = m ∧ be bs = s := by
  have hpow : 2 ^ (8 * m) = 256 ^ m := pow_mul 2 8 m
  constructor
  · intro h
    rcases bytesOfSum_cases s m with ⟨hlt, hs⟩ | ⟨-, hs⟩ <;> rw [hs] at h <;> cases h
    exact ⟨bytesBE_length s m, by rw [be_bytesBE, Nat.mod_eq_of_lt (hpow ▸ hlt)]⟩
  · rintro ⟨rfl, rfl⟩
    rw [bytesOfSum, if_pos (hpow ▸ be_lt bs), bytesBE_be]

/-- A group the block decoder accepts has valid characters, and their sum is the value of its four bytes (R140). -/
theorem digits_of_decBlock_ok {cs bs : List Byte} (h : decBlock cs = .ok bs) :
    ∃ ds, digitsOf cs = some ds ∧ bs.length = 4 ∧ be bs = sumHighFirst ds := by
  cases hds : digitsOf cs with
  | none => rw [decBlock, hds] at h; cases h
  | some ds => exact ⟨ds, rfl, bytesOfSum_eq_ok_iff.mp (decBlock_of_digits hds ▸ h)⟩

/-- A group the padding decoder accepts has valid characters, and their sum is the value of its bytes (R142). -/
theorem digits_of_padDec_ok {cs bs : List Byte} (h2 : 2 ≤ cs.length) (h4 : cs.length ≤ 4) (h : padDec cs = .ok bs) :
    ∃ ds, digitsOf cs = some ds ∧ bs.length = cs.length - 1 ∧ be bs = sumLowFirst ds := by
  cases hds : digitsOf cs with
  | none => rw [padDec_eq cs h2 h4, hds] at h; cases h
  | some ds => exact ⟨ds, rfl, bytesOfSum_eq_ok_iff.mp (padDec_of_digits h2 h4 hds ▸ h)⟩

/-! ## Encoders and decoders together (R149) -/

theorem decBlock_encBlock {bs : List Byte} (h : bs.length = 4) : decBlock (encBlock bs) = .ok bs := by
  rw [decBlock_of_digits (digitsOf_encBlock bs), sumHighFirst_eq_sumLowFirst_reverse, List.reverse_reverse,
    sumLowFirst_lowDigits (be_block_lt_pow_radix h)]
  exact bytesOfSum_eq_ok_iff.mpr ⟨h, rfl⟩

theorem padDec_padEnc {bs : List Byte} (h1 : 1 ≤ bs.length) (h3 : bs.length ≤ 3) : padDec (padEnc bs) = .ok bs := by
  rw [padDec_of_digits (by simp; omega) (by simp; omega) (digitsOf_padEnc bs),
    sumLowFirst_lowDigits (be_tail_lt_pow_radix h3)]
  exact bytesOfSum_eq_ok_iff.mpr ⟨by simp, rfl⟩

/-- Settles O39: the encoder's characters look up to the digits of the value, whose sum is the value. -/
theorem groupRoundTrip : Obligations.GroupRoundTrip := ⟨fun _ => decBlock_encBlock, fun _ => padDec_padEnc⟩

/-- Five characters the block decoder accepts are the block of the bytes it answers: the digits of a value are unique. -/
theorem encBlock_of_decBlock_ok {cs bs : List Byte} (h5 : cs.length = 5) (h : decBlock cs = .ok bs) :
    bs.length = 4 ∧ encBlock bs = cs := by
  obtain ⟨ds, hds, hlen, hsum⟩ := digits_of_decBlock_ok h
  obtain ⟨rfl, hlt⟩ := digitsOf_eq_some cs ds hds
  have hdigits : lowDigits (be bs) 5 = ds.reverse := by
    rw [hsum, sumHighFirst_eq_sumLowFirst_reverse, show 5 = ds.reverse.length by simpa using h5.symm]
    exact lowDigits_sumLowFirst fun d hd => hlt d (List.mem_reverse.mp hd)
  exact ⟨hlen, by rw [encBlock_eq_lowDigits, hdigits, List.reverse_reverse]⟩

/-- Two to four characters the padding decoder accepts are the tail of the bytes it answers. -/
theorem padEnc_of_padDec_ok {cs bs : List Byte} (h2 : 2 ≤ cs.length) (h4 : cs.length ≤ 4) (h : padDec cs = .ok bs) :
    bs.length = cs.length - 1 ∧ padEnc bs = cs := by
  obtain ⟨ds, hds, hlen, hsum⟩ := digits_of_padDec_ok h2 h4 h
  obtain ⟨rfl, hlt⟩ := digitsOf_eq_some cs ds hds
  have hn : bs.length + 1 = ds.length := by rw [List.length_map] at h2 hlen; omega
  exact ⟨hlen, by rw [padEnc_eq_lowDigits, hsum, hn, lowDigits_sumLowFirst hlt]⟩

/-- Settles O40, one decoder for each clause. -/
theorem acceptedGroupsAreCanonical : Obligations.AcceptedGroupsAreCanonical :=
  ⟨fun _ _ => encBlock_of_decBlock_ok, fun _ _ => padEnc_of_padDec_ok⟩

/-- There are `256^n` lists of `n` bytes. -/
theorem ncard_byteLists (n : Nat) : {bs : List Byte | bs.length = n}.ncard = 256 ^ n := by
  have hbyte : Fintype.card Byte = 256 := (FinEnum.card_eq_fintypeCard).symm.trans (FinEnum.card_bitVec 8)
  calc {bs : List Byte | bs.length = n}.ncard = Nat.card (List.Vector Byte n) := rfl
    _ = Fintype.card Byte ^ n := by rw [Nat.card_eq_fintype_card, card_vector]
    _ = 256 ^ n := by rw [hbyte]

/-- Where a decoder undoes an encoder, and accepts no group but the encoder's, its groups are as many as the byte lists. -/
theorem ncard_accepted {dec : List Byte → Except Status (List Byte)} {enc : List Byte → List Byte} {n m : Nat}
    (hlen : ∀ bs, bs.length = m → (enc bs).length = n) (hdec : ∀ bs, bs.length = m → dec (enc bs) = .ok bs)
    (henc : ∀ cs bs, cs.length = n → dec cs = .ok bs → bs.length = m ∧ enc bs = cs) :
    {cs : List Byte | cs.length = n ∧ ∃ bs, dec cs = .ok bs}.ncard = 256 ^ m := by
  have himage : {cs : List Byte | cs.length = n ∧ ∃ bs, dec cs = .ok bs} = enc '' {bs | bs.length = m} := by
    ext cs
    constructor
    · rintro ⟨hn, bs, hbs⟩
      exact ⟨bs, henc cs bs hn hbs⟩
    · rintro ⟨bs, hm, rfl⟩
      exact ⟨hlen bs hm, bs, hdec bs hm⟩
  have hinj : Set.InjOn enc {bs | bs.length = m} := by
    intro bs hbs bs' hbs' heq
    exact Except.ok.inj ((hdec bs hbs).symm.trans ((congrArg dec heq).trans (hdec bs' hbs')))
  rw [himage, hinj.ncard_image, ncard_byteLists]

theorem ncard_tails {n : Nat} (h1 : 1 ≤ n) (h3 : n ≤ 3) :
    {cs : List Byte | cs.length = n + 1 ∧ ∃ bs, padDec cs = .ok bs}.ncard = 256 ^ n := by
  refine ncard_accepted (enc := padEnc) (fun bs h => by simp [h]) (fun bs h => padDec_padEnc (by omega) (by omega))
    fun cs bs hn h => ?_
  simpa [hn] using padEnc_of_padDec_ok (by omega) (by omega) h

/-- Settles O41: the accepted groups are the encodings of the byte lists, each of one list. -/
theorem canonicalGroupCounts : Obligations.CanonicalGroupCounts := by
  refine ⟨?_, ncard_tails (n := 1) le_rfl (by decide), ncard_tails (n := 2) (by decide) (by decide),
    ncard_tails (n := 3) (by decide) le_rfl⟩
  exact ncard_accepted (m := 4) (fun bs _ => encBlock_length bs) (fun _ => decBlock_encBlock)
    fun _ _ => encBlock_of_decBlock_ok

/-- The lanes a block encoder leaves on the response port decode to the block's bytes. -/
theorem decBlock_lanes_respond {bs : List Byte} (h : bs.length = 4) (s : State) :
    decBlock (takeLanes 5 (s.respond (encBlock bs)).response.dout) = .ok bs := by
  have hlanes := takeLanes_packLanes (encBlock bs) (by simp)
  rw [encBlock_length] at hlanes
  rw [State.respond_response, okResponse_dout, hlanes, decBlock_encBlock h]

/-- The lanes a tail encoder leaves on the response port decode to the tail's bytes. -/
theorem padDec_lanes_respond {bs : List Byte} (h1 : 1 ≤ bs.length) (h3 : bs.length ≤ 3) (s : State) :
    padDec (takeLanes (bs.length + 1) (s.respond (padEnc bs)).response.dout) = .ok bs := by
  have hlanes := takeLanes_packLanes (padEnc bs) (by simp; omega)
  rw [padEnc_length] at hlanes
  rw [State.respond_response, okResponse_dout, hlanes, padDec_padEnc h1 h3]

/-- Settles O42: the decode operation's operands are the lanes the encode operation left. -/
theorem machineGroupRoundTrip : Obligations.MachineGroupRoundTrip := by
  refine ⟨fun b0 b1 b2 b3 s => ⟨_, exec_eq_respond rfl s, exec_respondsOk ?_ (by simp) _⟩,
    fun b0 s => ⟨_, exec_eq_respond rfl s, exec_respondsOk ?_ (by simp) _⟩,
    fun b0 b1 s => ⟨_, exec_eq_respond rfl s, exec_respondsOk ?_ (by simp) _⟩,
    fun b0 b1 b2 s => ⟨_, exec_eq_respond rfl s, exec_respondsOk ?_ (by simp) _⟩⟩
  · exact decBlock_lanes_respond (bs := [b0, b1, b2, b3]) rfl s
  · exact padDec_lanes_respond (bs := [b0]) (by simp) (by simp) s
  · exact padDec_lanes_respond (bs := [b0, b1]) (by simp) (by simp) s
  · exact padDec_lanes_respond (bs := [b0, b1, b2]) (by simp) (by simp) s

/-! ## The decode operations (R140 to R146) -/

/-- An operation whose result is a range check: the bytes of a sum that fits, OUT_OF_RANGE for one that does not (R148). -/
theorem exec_of_bytesOfSum {i : Instr} {v m : Nat} (h : resultOf i = bytesOfSum v m) (hm : m ≤ 5) (s : State) :
    (v < 2 ^ (8 * m) → RespondsOk (exec i s) s (bytesBE v m)) ∧ (2 ^ (8 * m) ≤ v → RespondsError (exec i s) s 4) := by
  constructor <;> intro hv
  · exact exec_respondsOk (by rw [h, bytesOfSum, if_pos hv]) (by simpa) s
  · exact exec_respondsError (e := .outOfRange) (by rw [h, bytesOfSum, if_neg (Nat.not_lt.mpr hv)]) s

section
variable {i : Instr} {cs : List Byte}

/-- A block with an invalid character is answered INVALID_CHARACTER, before any sum is formed (R147). -/
theorem exec_decBlock_of_invalid (hi : resultOf i = decBlock cs) (h : ∃ c ∈ cs, digitOfCode c.toNat = none) (s : State) :
    RespondsError (exec i s) s 2 :=
  exec_respondsError (e := .invalidCharacter) (by rw [hi, decBlock, digitsOf_eq_none cs h]) s

/-- A tail with an invalid character is answered INVALID_CHARACTER, before any sum is formed (R147). -/
theorem exec_padDec_of_invalid (hi : resultOf i = padDec cs) (h2 : 2 ≤ cs.length) (h4 : cs.length ≤ 4)
    (h : ∃ c ∈ cs, digitOfCode c.toNat = none) (s : State) : RespondsError (exec i s) s 2 :=
  exec_respondsError (e := .invalidCharacter) (by rw [hi, padDec_eq cs h2 h4, digitsOf_eq_none cs h]) s

end

/-- Settles O28: the sum and the bytes of the range check written out. -/
theorem dec5Rule : Obligations.Dec5Rule := by
  refine ⟨fun c0 c1 c2 c3 c4 d0 d1 d2 d3 d4 s h0 h1 h2 h3 h4 => ?_,
    fun c0 c1 c2 c3 c4 s h => exec_decBlock_of_invalid rfl h s,
    fun s h => step_of_decode_ok (decode_dec5 s.request h)⟩
  have hds : digitsOf [c0, c1, c2, c3, c4] = some [d0.toNat, d1.toNat, d2.toNat, d3.toNat, d4.toNat] := by
    simp [digitsOf_cons_some, *]
  have hexec := exec_of_bytesOfSum (i := .dec5 c0 c1 c2 c3 c4) (decBlock_of_digits hds) (by simp) s
  have hsum : sumHighFirst [d0.toNat, d1.toNat, d2.toNat, d3.toNat, d4.toNat] =
      d0.toNat * 52200625 + d1.toNat * 614125 + d2.toNat * 7225 + d3.toNat * 85 + d4.toNat := by
    simp only [sumHighFirst, List.length]; ring
  rw [hsum] at hexec
  simpa [bytesBE_eq, List.range_succ] using hexec

/-- Settles O29: the result is the one error, whatever the character. -/
theorem pdec1Rule : Obligations.Pdec1Rule := by
  have hexec : ∀ (c0 : Byte) (s : State), RespondsError (exec (.pdec1 c0) s) s 3 :=
    fun _ s => exec_respondsError (e := .invalidLength) rfl s
  exact ⟨hexec, fun s h hl => step_of_decode_ok (decode_pdec1 s.request h hl) ▸ hexec _ s⟩

/-- Settles O30: the sum and the byte of the range check written out. -/
theorem pdec2Rule : Obligations.Pdec2Rule := by
  refine ⟨fun c0 c1 d0 d1 s h0 h1 => ?_,
    fun c0 c1 s h => exec_padDec_of_invalid rfl (by simp) (by simp) h s,
    fun s h hl => step_of_decode_ok (decode_pdec2 s.request h hl)⟩
  have hds : digitsOf [c0, c1] = some [d0.toNat, d1.toNat] := by simp [digitsOf_cons_some, *]
  have hexec := exec_of_bytesOfSum (i := .pdec2 c0 c1) (padDec_of_digits (by simp) (by simp) hds) (by simp) s
  simpa [sumLowFirst, bytesBE_eq] using hexec

/-- Settles O31: the sum and the bytes of the range check written out. -/
theorem pdec3Rule : Obligations.Pdec3Rule := by
  refine ⟨fun c0 c1 c2 d0 d1 d2 s h0 h1 h2 => ?_,
    fun c0 c1 c2 s h => exec_padDec_of_invalid rfl (by simp) (by simp) h s,
    fun s h hl => step_of_decode_ok (decode_pdec3 s.request h hl)⟩
  have hds : digitsOf [c0, c1, c2] = some [d0.toNat, d1.toNat, d2.toNat] := by simp [digitsOf_cons_some, *]
  have hexec := exec_of_bytesOfSum (i := .pdec3 c0 c1 c2) (padDec_of_digits (by simp) (by simp) hds) (by simp) s
  have hsum : sumLowFirst [d0.toNat, d1.toNat, d2.toNat] = d0.toNat + 85 * d1.toNat + 7225 * d2.toNat := by
    simp only [sumLowFirst]; ring
  rw [hsum] at hexec
  simpa [bytesBE_eq, List.range_succ] using hexec

/-- Settles O32: the sum and the bytes of the range check written out. -/
theorem pdec4Rule : Obligations.Pdec4Rule := by
  refine ⟨fun c0 c1 c2 c3 d0 d1 d2 d3 s h0 h1 h2 h3 => ?_,
    fun c0 c1 c2 c3 s h => exec_padDec_of_invalid rfl (by simp) (by simp) h s,
    fun s h hl => step_of_decode_ok (decode_pdec4 s.request h hl)⟩
  have hds : digitsOf [c0, c1, c2, c3] = some [d0.toNat, d1.toNat, d2.toNat, d3.toNat] := by
    simp [digitsOf_cons_some, *]
  have hexec := exec_of_bytesOfSum (i := .pdec4 c0 c1 c2 c3) (padDec_of_digits (by simp) (by simp) hds) (by simp) s
  have hsum : sumLowFirst [d0.toNat, d1.toNat, d2.toNat, d3.toNat] =
      d0.toNat + 85 * d1.toNat + 7225 * d2.toNat + 614125 * d3.toNat := by
    simp only [sumLowFirst]; ring
  rw [hsum] at hexec
  simpa [bytesBE_eq, List.range_succ] using hexec

/-! ## Whole buffers, group by group (R171, R174) -/

/-- The text of a full block stands before that of the rest (R171). -/
theorem encodeGroups_block_append {bs : List Byte} (h : bs.length = 4) (rest : List Byte) :
    encodeGroups (bs ++ rest) = encBlock bs ++ encodeGroups rest := by
  match bs with
  | [b0, b1, b2, b3] =>
    change encodeGroups (b0 :: b1 :: b2 :: b3 :: rest) = _
    rw [encodeGroups, coreResponse_enc4, elements_okResponse _ (by simp)]

/-- The text of 1 to 3 bytes is that of one tail (R171). -/
theorem encodeGroups_tail {bs : List Byte} (h1 : 1 ≤ bs.length) (h3 : bs.length ≤ 3) : encodeGroups bs = padEnc bs := by
  match bs with
  | [b0] => rw [encodeGroups, coreResponse_penc1, elements_okResponse _ (by simp)]
  | [b0, b1] => rw [encodeGroups, coreResponse_penc2, elements_okResponse _ (by simp)]
  | [b0, b1, b2] => rw [encodeGroups, coreResponse_penc3, elements_okResponse _ (by simp)]

/-- A full group's result stands before that of the rest (R174). -/
theorem decodeGroups_block (c0 c1 c2 c3 c4 : Byte) (rest : List Byte) :
    decodeGroups (c0 :: c1 :: c2 :: c3 :: c4 :: rest) =
      decodeGroup (responseOf (decBlock [c0, c1, c2, c3, c4])) (decodeGroups rest) := by
  rw [decodeGroups, coreResponse_dec5]

/-- The result of 2 to 4 characters is that of one tail (R174). -/
theorem decodeGroups_tail {cs : List Byte} (h2 : 2 ≤ cs.length) (h4 : cs.length ≤ 4) :
    decodeGroups cs = decodeGroup (responseOf (padDec cs)) { status := 0, output := [] } := by
  match cs with
  | [c0, c1] => rw [decodeGroups, coreResponse_pdec2]; rfl
  | [c0, c1, c2] => rw [decodeGroups, coreResponse_pdec3]; rfl
  | [c0, c1, c2, c3] => rw [decodeGroups, coreResponse_pdec4]; rfl

/-- DECODE goes on past a group exactly when it is OK, and ends OK when the rest does too: with the bytes of both (R174). -/
theorem decodeGroup_eq_ok_iff {r : Response} {rest : HostResult} {b : List Byte} :
    decodeGroup r rest = { status := 0, output := b } ↔
      r.status = 0 ∧ rest.status = 0 ∧ b = r.elements ++ rest.output := by
  rw [decodeGroup, show Status.ok.code = 0 from rfl]
  split
  next hr =>
    split
    next hrest => simp only [HostResult.mk.injEq, hr, hrest, true_and, eq_comm]
    next hrest =>
      exact iff_of_false (fun h => hrest (congrArg HostResult.status h)) fun ⟨_, h, _⟩ => hrest h
  next hr => exact iff_of_false (fun h => hr (congrArg HostResult.status h)) fun ⟨h, _⟩ => hr h

/-- A decoder's response has status OK only where the decoder answers bytes, which are then the response's elements. -/
theorem decoder_ok_of_status {x : Except Status (List Byte)} {n : Nat} (hn : n ≤ 5)
    (h : x = .error .invalidCharacter ∨ x = .error .outOfRange ∨ ∃ bs, bs.length = n ∧ x = .ok bs)
    (hok : (responseOf x).status = 0) : x = .ok (responseOf x).elements := by
  rcases h with rfl | rfl | ⟨bs, rfl, rfl⟩
  · cases hok
  · cases hok
  · rw [responseOf, elements_okResponse bs hn]

/-- A tail DECODE accepts is the text of its bytes (R149). -/
theorem encodeGroups_of_decodeGroups_tail {cs b : List Byte} (h2 : 2 ≤ cs.length) (h4 : cs.length ≤ 4)
    (h : decodeGroups cs = { status := 0, output := b }) : encodeGroups b = cs := by
  rw [decodeGroups_tail h2 h4, decodeGroup_eq_ok_iff] at h
  obtain ⟨hok, -, rfl⟩ := h
  have hdec := decoder_ok_of_status (by omega) (padDec_cases cs h2 h4) hok
  obtain ⟨hlen, henc⟩ := padEnc_of_padDec_ok h2 h4 hdec
  rw [List.append_nil, encodeGroups_tail (by omega) (by omega), henc]

/-- Groups DECODE accepts, one after another, are the text of their bytes. -/
theorem encodeGroups_of_decodeGroups (t : List Byte) {b : List Byte}
    (h : decodeGroups t = { status := 0, output := b }) : encodeGroups b = t := by
  match t with
  | [] => cases h; rfl
  | [_] => cases h
  | [_, _] | [_, _, _] | [_, _, _, _] => exact encodeGroups_of_decodeGroups_tail (by simp) (by simp) h
  | c0 :: c1 :: c2 :: c3 :: c4 :: rest =>
    rw [decodeGroups_block, decodeGroup_eq_ok_iff] at h
    obtain ⟨hok, hrest, rfl⟩ := h
    have hdec := decoder_ok_of_status (by omega) (decBlock_cases [c0, c1, c2, c3, c4]) hok
    obtain ⟨hlen, henc⟩ := encBlock_of_decBlock_ok (by simp) hdec
    have ih := encodeGroups_of_decodeGroups rest (b := (decodeGroups rest).output) (by rw [← hrest])
    rw [encodeGroups_block_append hlen, henc, ih]
    rfl

/-- DECODE that ends OK had groups to decode (R175, R176). -/
theorem decodeGroups_of_hostDecode_ok {t b : List Byte} (h : hostDecode t = { status := 0, output := b }) :
    t ≠ [] ∧ decodeGroups t = { status := 0, output := b } := by
  unfold hostDecode at h
  split at h
  next => cases h
  next hne =>
    split at h
    next => cases h
    next => exact ⟨hne, h⟩

/-- Settles O50: the groups' text is the text; a nonempty text is that of no empty buffer. -/
theorem acceptedTextIsCanonical : Obligations.AcceptedTextIsCanonical := by
  intro t b h
  obtain ⟨hne, hgroups⟩ := decodeGroups_of_hostDecode_ok h
  have htext := encodeGroups_of_decodeGroups t hgroups
  have hb : b ≠ [] := by
    rintro rfl
    exact hne htext.symm
  rw [hostEncode, if_neg hb, htext]
  rfl

end Machine

end Sys2Proof

namespace Sys2Proof.Machine

/-! ## The host's procedures as sequences of requests (R170 to R181) -/

/-! ### ENCODE -/

theorem hostEncode_of_ne_nil {b : List Byte} (h : b ≠ []) :
    hostEncode b = { status := 0, output := encodeGroups b } := by
  rw [hostEncode, if_neg h]
  rfl

/-- A full block's text stands before that of the rest (R171). -/
theorem encodeGroups_block (b0 b1 b2 b3 : Byte) (rest : List Byte) :
    encodeGroups (b0 :: b1 :: b2 :: b3 :: rest) = encBlock [b0, b1, b2, b3] ++ encodeGroups rest :=
  encodeGroups_block_append (bs := [b0, b1, b2, b3]) rfl rest

/-- The text has `ceil(5L/4)` characters: a block adds five, a tail one more than its bytes (R173). -/
theorem length_encodeGroups (b : List Byte) : (encodeGroups b).length = (5 * b.length + 3) / 4 := by
  match b with
  | [] => rfl
  | [_] | [_, _] | [_, _, _] => simp [encodeGroups_tail]
  | b0 :: b1 :: b2 :: b3 :: rest =>
    rw [encodeGroups_block, List.length_append, encBlock_length, length_encodeGroups rest]
    simp only [List.length_cons]
    omega

theorem length_hostEncode_output {b : List Byte} (h : b ≠ []) :
    (hostEncode b).output.length = (5 * b.length + 3) / 4 := by
  rw [hostEncode_of_ne_nil h, length_encodeGroups]

/-- `ceil(5L/4)` by the number of blocks and the length of the tail (R173). -/
theorem textLength_eq (L : Nat) : (5 * L + 3) / 4 = 5 * (L / 4) + if 0 < L % 4 then L % 4 + 1 else 0 := by
  split <;> omega

/-- Settles O44: the three forms are one number. -/
theorem encodeLengthLaw : Obligations.EncodeLengthLaw := by
  intro b h
  rw [length_hostEncode_output h]
  refine ⟨textLength_eq b.length, ?_, rfl⟩
  rw [textLength_eq]
  by_cases hr : b.length % 4 = 0
  · simp [hr]
    omega
  · rw [if_pos (by omega), if_neg hr]
    omega

/-- Settles O45: the remainder by 5 of the text's length. -/
theorem tailIsRecoveredFromLength : Obligations.TailIsRecoveredFromLength := by
  intro b h
  rw [length_hostEncode_output h, textLength_eq]
  by_cases hr : b.length % 4 = 0
  · simp [hr]
  · rw [if_pos (by omega), if_neg hr]
    omega

/-- Requests issued one after another get each its own response, from any state (R51, R233). -/
theorem issueAll_eq_map_coreResponse (rs : List Request) (s : State) : issueAll rs s = rs.map coreResponse := by
  induction rs generalizing s with
  | nil => rfl
  | cons r rs ih =>
    rw [issueAll, issue, step_eq_next, List.map_cons]
    exact congrArg _ (ih _)

/-- ENCODE's groups are the operations it expands into, in stream order (R72, R171). -/
theorem encodeGroups_eq_flatMap_elements (b : List Byte) :
    encodeGroups b = (((expandEncode b).map encode).map coreResponse).flatMap Response.elements := by
  match b with
  | [] => rfl
  | [_] | [_, _] | [_, _, _] => exact (List.append_nil _).symm
  | b0 :: b1 :: b2 :: b3 :: rest =>
    rw [encodeGroups, encodeGroups_eq_flatMap_elements rest]
    rfl

/-- Settles O43: the responses the machine gives are those `encodeGroups` joins. -/
theorem hostEncodeIssuesItsExpansion : Obligations.HostEncodeIssuesItsExpansion := by
  refine ⟨rfl, rfl, fun b s h => ?_⟩
  rw [hostEncode_of_ne_nil h, issueAll_eq_map_coreResponse, encodeGroups_eq_flatMap_elements]

/-! ### DECODE -/

theorem hostDecode_of_length_mod_five {t : List Byte} (h : t.length % 5 = 1) :
    hostDecode t = { status := 3, output := [] } := by
  have hne : t ≠ [] := by
    rintro rfl
    cases h
  rw [hostDecode, if_neg hne, if_pos h]
  rfl

theorem hostDecode_eq_decodeGroups {t : List Byte} (hne : t ≠ []) (h : t.length % 5 ≠ 1) :
    hostDecode t = decodeGroups t := by
  rw [hostDecode, if_neg hne, if_neg h]

theorem expandDecode_of_length_mod_five {t : List Byte} (h : t.length % 5 = 1) : expandDecode t = [] := if_pos h

theorem expandDecode_eq_groupRequests {t : List Byte} (h : t.length % 5 ≠ 1) : expandDecode t = groupRequests t :=
  if_neg h

/-- Settles O46: the two checks before any group. -/
theorem hostDecodeLengthChecks : Obligations.HostDecodeLengthChecks :=
  ⟨rfl, rfl, fun _ h => ⟨hostDecode_of_length_mod_five h, expandDecode_of_length_mod_five h⟩⟩

/-- An OK group's bytes stand before those of a rest that is OK (R174). -/
theorem decodeGroup_of_ok {r : Response} (h : r.status = 0) (b : List Byte) :
    decodeGroup r { status := 0, output := b } = { status := 0, output := r.elements ++ b } :=
  decodeGroup_eq_ok_iff.mpr ⟨h, rfl, rfl⟩

/-- A group that is not OK ends the call with its status (R174). -/
theorem decodeGroup_of_failure {r : Response} (h : r.status ≠ 0) (rest : HostResult) :
    decodeGroup r rest = { status := r.status, output := [] } := if_neg h

/-- A failure in the rest discards the bytes of an OK group (R174). -/
theorem decodeGroup_of_rest_failure {r : Response} {st : BitVec 3} (h : r.status = 0) (hst : st ≠ 0) :
    decodeGroup r { status := st, output := [] } = { status := st, output := [] } :=
  (if_pos h).trans (if_neg hst)

/-- What a host returns for its groups' responses in stream order: the first status that is not OK, or all the
elements (R178). -/
def joinResponses (rs : List Response) : HostResult :=
  match rs.find? (fun r => r.status != 0) with
  | some r => { status := r.status, output := [] }
  | none => { status := 0, output := rs.flatMap Response.elements }

/-- DECODE's step from one group to the rest computes what the whole sequence of responses says (R174, R178). -/
theorem joinResponses_cons (r : Response) (rs : List Response) :
    joinResponses (r :: rs) = decodeGroup r (joinResponses rs) := by
  by_cases hr : r.status = 0
  · rw [joinResponses, joinResponses, List.find?_cons_of_neg (by simpa using hr)]
    cases hfind : rs.find? fun r => r.status != 0 with
    | none => exact (decodeGroup_of_ok hr _).symm
    | some failed =>
      have hfailed : failed.status ≠ 0 := by simpa using List.find?_some hfind
      exact (decodeGroup_of_rest_failure hr hfailed).symm
  · rw [joinResponses, List.find?_cons_of_pos (by simpa using hr), decodeGroup_of_failure hr]

/-- DECODE's groups give what the responses to their requests say, in stream order (R72, R174). -/
theorem decodeGroups_eq_joinResponses (t : List Byte) (h : t.length % 5 ≠ 1) :
    decodeGroups t = joinResponses (((groupRequests t).map encode).map coreResponse) := by
  match t with
  | [] => rfl
  | [_] => exact absurd rfl h
  | [_, _] | [_, _, _] | [_, _, _, _] => exact (joinResponses_cons _ []).symm
  | c0 :: c1 :: c2 :: c3 :: c4 :: rest =>
    have hrest : rest.length % 5 ≠ 1 := by simpa only [List.length_cons, Nat.add_assoc, Nat.add_mod_right] using h
    rw [decodeGroups, decodeGroups_eq_joinResponses rest hrest]
    exact (joinResponses_cons _ _).symm

/-- Settles O47: the responses the machine gives are those DECODE's groups are read from. -/
theorem hostDecodeReportsFirstFailure : Obligations.HostDecodeReportsFirstFailure := by
  intro t s hne h
  rw [hostDecode_eq_decodeGroups hne h, decodeGroups_eq_joinResponses t h, expandDecode_eq_groupRequests h,
    issueAll_eq_map_coreResponse]
  rfl

/-- Settles O48: an accepted text is the text of its bytes, so its length is `ceil(5n/4)` for `n` bytes. -/
theorem decodeLengthLaw : Obligations.DecodeLengthLaw := by
  intro t h
  obtain ⟨-, hgroups⟩ := decodeGroups_of_hostDecode_ok (t := t) (b := (hostDecode t).output) (by rw [← h])
  have hlen := length_encodeGroups (hostDecode t).output
  rw [encodeGroups_of_decodeGroups t hgroups] at hlen
  refine ⟨?_, by omega⟩
  split <;> omega

/-! ### DECODE after ENCODE (R180) -/

/-- Five characters stand as one group before the rest (R174). -/
theorem decodeGroups_block_append {cs : List Byte} (h : cs.length = 5) (rest : List Byte) :
    decodeGroups (cs ++ rest) = decodeGroup (responseOf (decBlock cs)) (decodeGroups rest) := by
  match cs with
  | [c0, c1, c2, c3, c4] => exact decodeGroups_block c0 c1 c2 c3 c4 rest

/-- A group that decodes to bytes puts them before those of the rest. -/
theorem decodeGroup_responseOf_ok {x : Except Status (List Byte)} {bs b : List Byte} (hx : x = .ok bs)
    (hlen : bs.length ≤ 5) : decodeGroup (responseOf x) { status := 0, output := b } =
      { status := 0, output := bs ++ b } := by
  rw [hx, responseOf, decodeGroup_of_ok (okResponse_status bs), elements_okResponse bs hlen]

theorem decodeGroups_padEnc {bs : List Byte} (h1 : 1 ≤ bs.length) (h3 : bs.length ≤ 3) :
    decodeGroups (padEnc bs) = { status := 0, output := bs } := by
  rw [decodeGroups_tail (by simp; omega) (by simp; omega), decodeGroup_responseOf_ok (padDec_padEnc h1 h3) (by omega),
    List.append_nil]

/-- Every group of a text decodes to the bytes it stands for, in stream order. -/
theorem decodeGroups_encodeGroups (b : List Byte) :
    decodeGroups (encodeGroups b) = { status := 0, output := b } := by
  match b with
  | [] => rfl
  | [_] | [_, _] | [_, _, _] =>
    rw [encodeGroups_tail (by simp) (by simp)]
    exact decodeGroups_padEnc (by simp) (by simp)
  | b0 :: b1 :: b2 :: b3 :: rest =>
    rw [encodeGroups_block, decodeGroups_block_append (encBlock_length _), decodeGroups_encodeGroups rest,
      decodeGroup_responseOf_ok (decBlock_encBlock rfl) (by simp)]
    rfl

/-- Settles O49: the text is not empty, its length is not 1 modulo 5, and its groups decode to the buffer. -/
theorem streamRoundTrip : Obligations.StreamRoundTrip := by
  intro b h
  have hlen := length_hostEncode_output h
  have hpos := List.length_pos_iff.mpr h
  have hne : (hostEncode b).output ≠ [] := List.length_pos_iff.mp (by omega)
  rw [hostDecode_eq_decodeGroups hne (by omega), hostEncode_of_ne_nil h]
  exact ⟨rfl, decodeGroups_encodeGroups b⟩

end Sys2Proof.Machine

namespace Sys2Proof

/-! ## Which selectors are legal (R63, R64, R69) -/

/-- The illegal selectors of R69, among all 64. -/
theorem lengthLegal_eq_false_iff : ∀ op len : BitVec 3, lengthLegal op len = false ↔
    op = 6 ∨ op = 7 ∨ (op = 2 ∧ (len = 0 ∨ 4 ≤ len.toNat)) ∨ (op = 3 ∧ (len = 0 ∨ 5 ≤ len.toNat)) := by
  decide

/-- The selectors that name no operation are the illegal ones, among all 64. -/
theorem mnemonic?_eq_none_iff_selector : ∀ op len : BitVec 3,
    Request.mnemonic? { op, len, din := 0 } = none ↔ lengthLegal op len = false := by
  decide

/-- A legal selector that is neither PDEC1 nor ALPH belongs to an encoder, or to an operation that looks characters up. -/
theorem encoder_or_decoder_of_lengthLegal : ∀ op len : BitVec 3, lengthLegal op len = true → ¬ (op = 3 ∧ len = 1) →
    op ≠ 4 → (op = 0 ∨ op = 2) ∨ op = 1 ∨ (op = 3 ∧ 2 ≤ len.toNat ∧ len.toNat ≤ 4) ∨ op = 5 := by
  decide

/-- Every legal selector names a group of at least one element (R206). -/
theorem one_le_lanesWritten_selector : ∀ op len : BitVec 3, lengthLegal op len = true →
    1 ≤ Request.lanesWritten { op, len, din := 0 } := by
  decide

/-- The decoder rejects exactly the requests whose selector is illegal (R69). -/
theorem decode_eq_error_iff (r : Request) : decode r = .error .illegalRequest ↔ r.legal = false := by
  rw [← r.mnemonic?_eq_none_iff, r.mnemonic?_din_zero]
  exact mnemonic?_eq_none_iff_selector r.op r.len

theorem exists_decode_ok {r : Request} (h : r.legal ≠ false) : ∃ i, decode r = .ok i := by
  cases hd : decode r with
  | ok i => exact ⟨i, rfl⟩
  | error e => exact absurd ((decode_eq_error_iff r).mp (decode_error_eq hd ▸ hd)) h

/-- The group's length is found from the selector alone (R70), so the lanes' values do not matter here. -/
theorem one_le_lanesWritten {r : Request} (h : r.legal = true) : 1 ≤ r.lanesWritten :=
  one_le_lanesWritten_selector r.op r.len h

theorem legal_eq_false_of_len_zero {r : Request} (hop : r.op = 2 ∨ r.op = 3) (hlen : r.len = 0) : r.legal = false :=
  (lengthLegal_eq_false_iff r.op r.len).mpr
    (.inr (.inr (hop.imp (fun h => ⟨h, .inl hlen⟩) fun h => ⟨h, .inl hlen⟩)))

/-! ## What the legality of a response says (R68, R201, R206) -/

section
variable {p : Response} (h : p.legal = true)
include h

/-- EMPTY_INPUT and the reserved codes are no status of a legal response. -/
theorem status_of_legal : p.status ≠ 1 ∧ p.status ≠ 6 ∧ p.status ≠ 7 := by
  simp only [Response.legal, Bool.and_eq_true, bne_iff_ne] at h
  obtain ⟨⟨⟨⟨⟨h1, h6⟩, h7⟩, -⟩, -⟩, -⟩ := h
  exact ⟨h1, h6, h7⟩

/-- A legal response that is an error has no output. -/
theorem output_eq_zero_of_legal (hne : p.status ≠ 0) : p.doutLen = 0 ∧ p.dout = 0 := by
  simp only [Response.legal, Bool.and_eq_true] at h
  obtain ⟨-, houtput⟩ := h
  rw [if_neg hne] at houtput
  simpa using houtput

end
end Sys2Proof

namespace Sys2Proof.Machine

/-! ## Illegal selectors (R69, R202) -/

theorem step_of_illegal {s : State} (h : s.request.legal = false) : step s = .next (s.raise .illegalRequest) :=
  step_of_decode_error ((decode_eq_error_iff _).mpr h)

theorem coreResponse_of_illegal {r : Request} (h : r.legal = false) : coreResponse r = errorResponse .illegalRequest :=
  coreResponse_of_decode_error ((decode_eq_error_iff r).mpr h)

/-- Settles O5: the listed selectors are the illegal ones, which the decoder rejects and a step answers with the error. -/
theorem illegalSelectorsAnswered : Obligations.IllegalSelectorsAnswered := by
  intro s
  have hlisted := lengthLegal_eq_false_iff s.request.op s.request.len
  refine ⟨fun h => ?_, fun h => exists_decode_ok fun hlegal => h (hlisted.mp hlegal)⟩
  have hillegal : s.request.legal = false := hlisted.mpr h
  exact ⟨(decode_eq_error_iff _).mpr hillegal, step_of_illegal hillegal ▸ respondsError_raise s .illegalRequest⟩

/-- Settles O17: every response is legal, a legal selector names a group, and PENC and PDEC have no length 0. -/
theorem emptyInputNeverReturned : Obligations.EmptyInputNeverReturned := by
  intro s t hstep
  rw [step_eq_next] at hstep
  cases hstep
  obtain ⟨h1, h6, h7⟩ := status_of_legal (coreResponse_legal s.request)
  refine ⟨h1, h6, h7, one_le_lanesWritten, fun hop hlen => ?_⟩
  exact congrArg Response.status (coreResponse_of_illegal (legal_eq_false_of_len_zero hop hlen))

/-- Settles O18: the response is legal, and the step keeps every other field. -/
theorem errorsCarryNoOutput : Obligations.ErrorsCarryNoOutput := by
  intro s t hstep hne
  rw [step_eq_next] at hstep
  cases hstep
  obtain ⟨hlen, hdout⟩ := output_eq_zero_of_legal (coreResponse_legal s.request) hne
  exact ⟨hlen, hdout, rfl, rfl⟩

/-! ## Runs (R201, R209) -/

/-- A run whose first step answers a next state goes on from there. -/
theorem run_succ_of_step_next {M : Host.Core} {s s' : M.State} (h : M.step s = .next s') (k : Nat) :
    M.run (k + 1) s = M.run k s' := by
  rw [Host.Core.run, h]

/-- A run of any positive length settles the response port: the first step does, and the later ones answer the same
request. -/
theorem run_succ_eq_next (k : Nat) (s : State) :
    Sys2Proof.core.run (k + 1) s = .next { s with response := coreResponse s.request } := by
  induction k generalizing s with
  | zero => exact run_succ_of_step_next (M := Sys2Proof.core) (step_eq_next s) 0
  | succ k ih => exact (run_succ_of_step_next (M := Sys2Proof.core) (step_eq_next s) (k + 1)).trans (ih _)

/-- Settles O12: a run of no steps ends where it starts, and a longer one in the settled state. -/
theorem runsNeverStop : Obligations.RunsNeverStop := by
  intro k s
  cases k with
  | zero => exact ⟨s, rfl, rfl, fun h => absurd h (Nat.lt_irrefl 0)⟩
  | succ k => exact ⟨_, run_succ_eq_next k s, rfl, fun _ => rfl⟩

/-! ## Which error comes first (R207) -/

theorem decBlock_of_invalid {cs : List Byte} (h : ∃ c ∈ cs, digitOfCode c.toNat = none) :
    decBlock cs = .error .invalidCharacter := by
  rw [decBlock, digitsOf_eq_none cs h]

theorem padDec_of_invalid {cs : List Byte} (h2 : 2 ≤ cs.length) (h4 : cs.length ≤ 4)
    (h : ∃ c ∈ cs, digitOfCode c.toNat = none) : padDec cs = .error .invalidCharacter := by
  rw [padDec_eq cs h2 h4, digitsOf_eq_none cs h]

theorem reverseRead_of_invalid {c : Byte} (h : digitOfCode c.toNat = none) :
    reverseRead c = .error .invalidCharacter := by
  simp [reverseRead, rRom_of_none c h]

/-- An invalid character in one of the first `n` lanes is a member of the group they hold. -/
theorem exists_mem_takeLanes_invalid {n : Nat} {w : BitVec 40} (h : ∃ k < n, digitOfCode (lane k w).toNat = none) :
    ∃ c ∈ takeLanes n w, digitOfCode c.toNat = none := by
  obtain ⟨k, hk, hnone⟩ := h
  exact ⟨lane k w, List.mem_map_of_mem (List.mem_range.mpr hk), hnone⟩

section
variable {r : Request}

theorem coreResponse_of_pdec1 (h : r.op = 3) (hlen : r.len = 1) : coreResponse r = errorResponse .invalidLength :=
  coreResponse_of_decode_ok (decode_pdec1 r h hlen)

/-- An encoder never answers OUT_OF_RANGE: its only error is an illegal length (R128). -/
theorem coreResponse_status_encoder_ne_outOfRange (h : r.op = 0 ∨ r.op = 2) : (coreResponse r).status ≠ 4 := by
  rcases h with h | h
  · rw [coreResponse_of_op_enc4 h, okResponse_status]
    decide
  · rw [coreResponse_status_penc h]
    split <;> decide

/-- DEC5, PDEC2 to PDEC4 and RALPH check the characters they use before anything else (R147, R104). -/
theorem coreResponse_of_invalid (hop : r.op = 1 ∨ (r.op = 3 ∧ 2 ≤ r.len.toNat ∧ r.len.toNat ≤ 4) ∨ r.op = 5)
    (h : ∃ k < r.lanesRead, digitOfCode (lane k r.din).toNat = none) :
    coreResponse r = errorResponse .invalidCharacter := by
  rcases hop with hop | ⟨hop, hlen⟩ | hop
  · have hread : r.lanesRead = 5 := by simp [Request.lanesRead, hop]
    rw [hread] at h
    rw [coreResponse_of_op_dec5 hop, decBlock_of_invalid (exists_mem_takeLanes_invalid h)]
    rfl
  · rw [lanesRead_pdec hop hlen] at h
    rw [coreResponse_of_op_pdec_eq_padDec hop,
      padDec_of_invalid (by simpa using hlen.1) (by simpa using hlen.2) (exists_mem_takeLanes_invalid h)]
    rfl
  · have hread : r.lanesRead = 1 := by simp [Request.lanesRead, hop]
    obtain ⟨k, hk, hnone⟩ := h
    obtain rfl : k = 0 := by omega
    rw [coreResponse_of_op_ralph hop, reverseRead_of_invalid hnone]
    rfl

/-- OUT_OF_RANGE is what the earlier causes leave: each of them gives another status, and the encoders never give it. -/
theorem earlier_causes_absent_of_outOfRange (h : (coreResponse r).status = 4) :
    r.legal = true ∧ ¬ (r.op = 3 ∧ r.len = 1) ∧
      (r.op ≠ 4 → ∀ k < r.lanesRead, digitOfCode (lane k r.din).toNat ≠ none) := by
  have hlegal : r.legal = true := by
    by_contra hillegal
    rw [coreResponse_of_illegal (Bool.eq_false_iff.mpr hillegal)] at h
    cases h
  have hpdec1 : ¬ (r.op = 3 ∧ r.len = 1) := by
    rintro ⟨hop, hlen⟩
    rw [coreResponse_of_pdec1 hop hlen] at h
    cases h
  refine ⟨hlegal, hpdec1, fun halph k hk hnone => ?_⟩
  rcases encoder_or_decoder_of_lengthLegal r.op r.len hlegal hpdec1 halph with henc | hdec
  · exact coreResponse_status_encoder_ne_outOfRange henc h
  · rw [coreResponse_of_invalid hdec ⟨k, hk, hnone⟩] at h
    cases h

end

/-- Settles O20: one rule for each cause, in the order of R207, and OUT_OF_RANGE by excluding them. -/
theorem errorPriority : Obligations.ErrorPriority := by
  intro s t hstep
  rw [step_eq_next] at hstep
  cases hstep
  exact ⟨fun h => congrArg Response.status (coreResponse_of_illegal h),
    fun h hlen => congrArg Response.status (coreResponse_of_pdec1 h hlen),
    fun hop h => congrArg Response.status (coreResponse_of_invalid hop h),
    earlier_causes_absent_of_outOfRange⟩

end Sys2Proof.Machine

namespace Sys2Proof.Machine

/-! ## Reset and hazards (R230 to R234) -/

/-- Settles O13: no response depends on the state its request was issued to, so neither on the requests before it. -/
theorem issuedRequestsAreIndependent : Obligations.IssuedRequestsAreIndependent := issueAll_eq_map_coreResponse

/-- Once the path has settled, a sample reads the response to the request on the port and takes no free value (R234). -/
theorem sampleResponse_of_tProp_le {elapsed : Nat} (h : Config.tProp ≤ elapsed) (s : State) :
    sampleResponse elapsed s = (coreResponse s.request, s) :=
  if_pos h

/-- Settles O16: the sample and the step both give the response to the request that was driven. -/
theorem settledSampleIsTheResponse : Obligations.SettledSampleIsTheResponse := by
  intro s t r elapsed helapsed hstep
  rw [step_eq_next] at hstep
  cases hstep
  exact sampleResponse_of_tProp_le helapsed (s.drive r)

/-- The response port after reset already holds the response to the request on it: a step changes nothing (R29, R230). -/
theorem step_reset : step State.reset = .next State.reset := rfl

/-- Settles O15: the state after reset is the one a step from it leads to, and every step leads to a safe state. -/
theorem resetIsSafe : Obligations.ResetIsSafe := stepEstablishesSafe State.reset State.reset step_reset

end Sys2Proof.Machine
